-- ==== Sys2Proof/Word.lean ====
section
/-! DEFINITION. The words that cross the block's ports (spec/30_encoding.md R50, R53, R54).

Exact arithmetic is done on `Int` and `Nat` (spec/00_scope.md R8); a bit vector stands only where the spec
gives a port or a register a width. -/

namespace Sys2Proof

/-- The command word, 8 bits (R50). -/
abbrev CmdWord := BitVec 8

/-- An int16 port, 16 bits, read as `sext_16` (R54). -/
abbrev I16 := BitVec 16

/-- A binary64 port or register, 64 bits in the IEEE 754 interchange format: bit 63 the sign, bits 62:52 the
biased exponent, bits 51:0 the fraction (R54). -/
abbrev B64 := BitVec 64

/-- The `sector` port, 3 bits, read as `zext_3` (R54). -/
abbrev SectorCode := BitVec 3

end Sys2Proof
end

