-- ==== Sys2Proof/Config.lean ====
section
/-! DEFINITION. What one block fixes, and the values the spec leaves free.

The configuration is state (spec/10_state.md R20, R21); this file gives its type and the free values of the
model. A constant declared `opaque` has no body: no proof can see its value, so a theorem that mentions it
holds whatever it is. -/

namespace Sys2Proof

/-- LIMIT_MODE (spec/10_state.md R25). -/
inductive LimitMode where
  /-- 0: the square-root lookup (spec/40_limiter.md R66). -/
  | table
  /-- 1: the integer square root (R67, R68). -/
  | exact
deriving DecidableEq, Repr, Inhabited

/-- INDEX_POLICY (spec/10_state.md R26). -/
inductive IndexPolicy where
  /-- 0: clamp to 0..86 (spec/40_limiter.md R64). -/
  | clamp
  /-- 1: reduce modulo 256 (R65). -/
  | wrap8
deriving DecidableEq, Repr, Inhabited

/-- The configuration registers, the source's LimiterConfig (spec/10_state.md R21): every field with its width.
The table has its 87 entries by type (R7, spec/20_memory.md R40). -/
structure LimiterConfig where
  /-- 0x00 MAX_MODULE (R22). -/
  maxModule : BitVec 16
  /-- 0x01 MAX_VD (R23). -/
  maxVd : BitVec 16
  /-- 0x02 START_INDEX (R24). -/
  startIndex : BitVec 8
  /-- 0x03 LIMIT_MODE (R25). -/
  limitMode : LimitMode
  /-- 0x04 INDEX_POLICY (R26). -/
  indexPolicy : IndexPolicy
  /-- 0x40 + i TABLE[i] (R27). -/
  table : Vector (BitVec 16) 87
deriving DecidableEq, Repr, Inhabited

/-- The binary64 operations that can deliver a NaN from operands of which some may be no NaN (spec/00_scope.md
R9). It only labels the free NaN below. -/
inductive FloatOp where
  | add
  | sub
  | mul
  | div
  | sqrt
deriving DecidableEq, Repr

namespace Config

/-- FREE. The parameters P_MAX_MODULE to P_INDEX_POLICY of spec/00_scope.md R6, OPEN in the spec. Only a legal
configuration has a run (spec/10_state.md R28), so the reset state holds `LimiterConfig.legalOr` of this
value. DESIGN CHOICE (log entry 4), safe: no claim can rest on a value of it. -/
opaque parameterSeed : LimiterConfig

/-- FREE. The bits of the NaN that an operation delivers on given operands: IEEE 754 leaves sign and payload
open, and the spec keeps "as IEEE 754 gives it" (spec/92_eei_decisions.md D38). Used through `nanResult`
only, which admits no other value than a NaN. DESIGN CHOICE (log entry 6), safe. -/
opaque nanSeed : FloatOp → B64 → B64 → B64

/-- FREE. P_NUM_ATAN2 (`NUM_ATAN2(y, x)`), OPEN in the spec (spec/42_encoder.md R107). Used through
`numerics` only, which admits R107's functions and no others. DESIGN CHOICE (log entry 5), safe. -/
opaque atan2Seed : B64 → B64 → B64

/-- FREE. `NUM_SIN` (R107); see `atan2Seed`. -/
opaque sinSeed : B64 → B64

/-- FREE. `NUM_COS` (R107); see `atan2Seed`. -/
opaque cosSeed : B64 → B64

/-- FREE. The value given for the parameter PI64, none where none is given: "The model takes these parameters as
arguments" (spec/00_scope.md R6, spec/93_implementation_defined.md I13). Used through `numPi64` only, which takes
every legal value. DESIGN CHOICE (log entry 7), safe. -/
opaque pi64Arg : Option B64

/-- FREE. The value given for the parameter K_2_SQRT3 (R6); see `pi64Arg`. Used through `numK2Sqrt3` only. -/
opaque k2Sqrt3Arg : Option B64

/-- The default of PI64: the binary64 nearest π, `0x1.921fb54442d18p+1` (R6). -/
def pi64Default : B64 := 0x400921FB54442D18#64

/-- The default of K_2_SQRT3: the binary64 nearest 2/√3, `0x1.279a74590331dp+0` (R6). -/
def k2Sqrt3Default : B64 := 0x3FF279A74590331D#64

end Config

end Sys2Proof
end

