-- ==== Sys2Proof/Syntax.lean ====
section
/-! DEFINITION. The block's commands as syntax: the three command names, a command with its operands (the
spec's "command", spec/00_scope.md R12), the ports a command word comes with, and what the host may do.

No command has an immediate field (spec/30_encoding.md R54): the operands of an `Instr` are the values on the
command's input ports, read when it is decoded (log entry 16). -/

namespace Sys2Proof

/-- The three command names, the rows of the opcode map (spec/30_encoding.md R51). -/
inductive Command where
  | limit
  | rotate
  | tick
deriving DecidableEq, Repr

/-- LIMIT's input ports (R53). -/
structure LimitIn where
  q : I16
  d : I16
deriving DecidableEq, Repr

/-- ROTATE's input ports (R53). -/
structure RotateIn where
  q : B64
  d : B64
  /-- Radians. -/
  theta : B64
deriving DecidableEq, Repr

/-- TICK's input ports (R53). -/
structure TickIn where
  alpha : B64
  beta : B64
  busVoltage : B64
  /-- `Ts` in spec/42_encoder.md. -/
  carrierPeriod : B64
  secondaryInput : B64
  dt : B64
deriving DecidableEq, Repr

/-- A command with its operands: one constructor per row of spec/opcode_table.json, its arguments the row's
`operands.in`, each as the bits of its port. -/
inductive Instr where
  /-- LIMIT, 0x01 (spec/40_limiter.md R60). -/
  | limit (q d : I16)
  /-- ROTATE, 0x02 (spec/41_rotator.md R80). -/
  | rotate (q d theta : B64)
  /-- TICK, 0x03 (spec/42_encoder.md R85). -/
  | tick (p : TickIn)
deriving DecidableEq, Repr

/-- The name of a command. -/
def Instr.command : Instr → Command
  | .limit _ _ => .limit
  | .rotate _ _ _ => .rotate
  | .tick _ => .tick

/-- Every input port of the block. A command reads its own ports and no others (spec/30_encoding.md R53). -/
structure InputPorts where
  limit : LimitIn
  rotate : RotateIn
  tick : TickIn
deriving DecidableEq, Repr

/-- What the host presents for one command: "an 8-bit command word, together with that command's operand values
on its input ports" (spec/30_encoding.md R50). -/
structure Presented where
  word : CmdWord
  ports : InputPorts
deriving DecidableEq, Repr

/-- What the host may do to the block (spec/70_reset_and_hazards.md R149), besides reading outputs. -/
inductive HostAction where
  /-- A construction: configuration fields, each a field number of spec/10_state.md R21 with its value. -/
  | construct (fields : List (Nat × Int))
  /-- The reset action (R140). -/
  | reset
  /-- One command (R50). -/
  | command (c : Presented)
deriving DecidableEq, Repr

/-- A sector of the electrical angle, "an integer 1 to 6" (spec/00_scope.md R12, spec/42_encoder.md R91). -/
inductive Sector where
  | s1
  | s2
  | s3
  | s4
  | s5
  | s6
deriving DecidableEq, Repr

/-- The operands of TICK that its value checks name (spec/60_exceptions.md R122). -/
inductive TickPort where
  | carrierPeriod
  | busVoltage
deriving DecidableEq, Repr

/-- The named configuration checks (spec/10_state.md R28), in the table's order. -/
inductive ConfigCheck where
  | maxModuleRange
  | maxVdRange
  | startIndexRange
  | tableLength
  | tableRange
  | tableMonotonic
  | modeValue
  | policyValue
  | noReserved
deriving DecidableEq, Repr

end Sys2Proof
end

