-- ==== Sys2Proof/Machine/Arith.lean ====
section
/-! DEFINITION. The exact integer operations of spec/00_scope.md R8. -/

namespace Sys2Proof.Machine

/-- `tdiv(a, b)`: the quotient rounded toward zero (R8). -/
def tdiv (a b : Int) : Int := Int.tdiv a b

/-- The integer square root bit by bit: `r` is the part found so far, its bits below `2^b` still open. -/
def isqrtBits (n : Nat) : Nat → Nat → Nat
  | 0, r => r
  | b + 1, r => isqrtBits n b (if (r + 2 ^ b) * (r + 2 ^ b) ≤ n then r + 2 ^ b else r)

/-- `isqrt(n)`: the largest integer `r` with `r*r <= n` (R8). -/
def isqrt (n : Nat) : Nat := isqrtBits n (Nat.log2 n / 2 + 1) 0

/-- `a mod m`, the non-negative remainder (R8). -/
def modNat (a : Int) (m : Nat) : Nat := (a % (m : Int)).toNat

end Sys2Proof.Machine
end

