-- ==== Sys2Proof/Machine/Flags.lean ====
section
/-! DEFINITION. The conditions a command tests on binary64 values: the classes and the comparisons of IEEE 754
(spec/00_scope.md R9).

"The block has no flags and no condition codes" (spec/10_state.md R33): each condition is computed where it is
used and kept nowhere. -/

namespace Sys2Proof.Machine

/-- Bit 63, the sign (spec/30_encoding.md R54). -/
def signBit (x : B64) : Bool := x.getLsbD 63

/-- Bits 62:52, the biased exponent (R54). -/
def expField (x : B64) : Nat := (x.extractLsb' 52 11).toNat

/-- Bits 51:0, the fraction (R54). -/
def fracField (x : B64) : Nat := (x.extractLsb' 0 52).toNat

/-- The exponent is all ones and the fraction is not zero. -/
def isNaN (x : B64) : Bool := expField x == 2047 && fracField x != 0

/-- The exponent is all ones and the fraction is zero. -/
def isInf (x : B64) : Bool := expField x == 2047 && fracField x == 0

/-- Neither NaN nor infinite. -/
def isFinite (x : B64) : Bool := expField x != 2047

/-- Either zero, whatever its sign. -/
def isZero (x : B64) : Bool := expField x == 0 && fracField x == 0

/-- The place of a non-NaN value in the order of IEEE 754: the magnitude bits as a number, negated under a sign.
The interchange format is monotonic in it, and both zeros are 0. -/
def orderKey (x : B64) : Int :=
  let mag : Int := (x.extractLsb' 0 63).toNat
  if signBit x then -mag else mag

/-- `x < y`; "any comparison with a NaN is false" (R9). -/
def flt (x y : B64) : Bool := !isNaN x && !isNaN y && decide (orderKey x < orderKey y)

/-- `x <= y` (R9). -/
def fle (x y : B64) : Bool := !isNaN x && !isNaN y && decide (orderKey x ≤ orderKey y)

/-- `x == y`; "`-0.0 == +0.0` is true" (R9). -/
def feq (x y : B64) : Bool := !isNaN x && !isNaN y && decide (orderKey x = orderKey y)

/-- `x > y` (R9). -/
def fgt (x y : B64) : Bool := flt y x

end Sys2Proof.Machine
end

