-- ==== Sys2Proof/Machine/Float.lean ====
section
/-! DEFINITION. Binary64 arithmetic: `fl(e)` of spec/00_scope.md R9, "one IEEE 754 binary64 operation, rounding
to nearest with ties to even".

Every operation unpacks its operands, computes the exact result as `m * 2^e` (with a mark that some positive
part below the last bit was dropped), and packs it in ONE place, `roundPack`. R9 names IEEE 754 for what it
does not restate: infinities, signed zeros, subnormals and overflow are taken from that standard (PRESUMED, log
entry 15). -/

namespace Sys2Proof.Machine

/-- A binary64 value taken apart: a finite value is `(-1)^neg * m * 2^e`, and zero is `m = 0`. -/
inductive Unpacked where
  | nan
  | inf (neg : Bool)
  | fin (neg : Bool) (m : Nat) (e : Int)
deriving DecidableEq, Repr

/-- The value of the 64 bits (spec/30_encoding.md R54). -/
def unpack (x : B64) : Unpacked :=
  if expField x = 2047 then
    if fracField x = 0 then .inf (signBit x) else .nan
  else if expField x = 0 then .fin (signBit x) (fracField x) (-1074)
  else .fin (signBit x) (fracField x + 2 ^ 52) ((expField x : Int) - 1075)

/-- The bits with sign `neg` and the other 63 bits as a number. -/
def withSign (neg : Bool) (mag : Nat) : B64 := BitVec.ofBool neg ++ BitVec.ofNat 63 mag

/-- ±infinity. -/
def infinity (neg : Bool) : B64 := withSign neg (2047 * 2 ^ 52)

/-- ±0.0. -/
def zero (neg : Bool) : B64 := withSign neg 0

/-- The NaN an operation delivers: any NaN at all, unknown, the same for the same operation on the same operands
(log entry 6; spec/70_reset_and_hazards.md R146). -/
def nanResult (op : FloatOp) (x y : B64) : B64 :=
  if isNaN (Config.nanSeed op x y) then Config.nanSeed op x y else 0x7FF8000000000000#64

/-- The exponent of the last kept bit for a magnitude `m * 2^e`: 53 significant bits, and never below the
subnormal spacing `2^-1074`. -/
def quantum (m : Nat) (e : Int) : Int := max (e + Nat.log2 m - 52) (-1074)

/-- `m / 2^k` rounded to nearest, ties to even; `sticky` says that the exact value exceeds `m` by a part smaller
than one. -/
def roundShift (m k : Nat) (sticky : Bool) : Nat :=
  let kept := m / 2 ^ k
  let rest := m % 2 ^ k
  if 2 * rest > 2 ^ k ∨ (2 * rest = 2 ^ k ∧ (sticky ∨ kept % 2 = 1)) then kept + 1 else kept

/-- The significand, in units of `2^(quantum m e)`. A `sticky` value comes with `m` wide enough that bits are
dropped. -/
def roundSig (m : Nat) (e : Int) (sticky : Bool) : Nat :=
  if quantum m e ≤ e then m * 2 ^ (e - quantum m e).toNat
  else roundShift m (quantum m e - e).toNat sticky

/-- The magnitude bits of a rounded value: the biased exponent above the fraction. A significand that rounded up
to `2^53` carries into the exponent by itself. -/
def magBits (m : Nat) (e : Int) (sticky : Bool) : Nat :=
  (quantum m e + 1074).toNat * 2 ^ 52 + roundSig m e sticky

/-- Round `(-1)^neg * m * 2^e` to binary64; a magnitude past the largest finite value overflows to infinity. -/
def roundPack (neg : Bool) (m : Nat) (e : Int) (sticky : Bool) : B64 :=
  if m = 0 then zero neg
  else if magBits m e sticky < 2047 * 2 ^ 52 then withSign neg (magBits m e sticky)
  else infinity neg

/-- The signed integer significand. -/
def signedSig (neg : Bool) (m : Nat) : Int := if neg then -(m : Int) else m

/-- The exact sum of two finite values, in units of `2^(min e f)`. -/
def sumSig (a : Bool) (m : Nat) (e : Int) (b : Bool) (n : Nat) (f : Int) : Int :=
  signedSig a m * 2 ^ (e - min e f).toNat + signedSig b n * 2 ^ (f - min e f).toNat

/-- The sum of two unpacked values; `nan` is the NaN to deliver. An exact zero sum is +0.0 unless both operands
are negative zeros. -/
def addUnpacked (u v : Unpacked) (nan : B64) : B64 :=
  match u, v with
  | .nan, _ => nan
  | _, .nan => nan
  | .inf a, .inf b => if a = b then infinity a else nan
  | .inf a, .fin _ _ _ => infinity a
  | .fin _ _ _, .inf b => infinity b
  | .fin a m e, .fin b n f =>
    let s := sumSig a m e b n f
    if s = 0 then zero (a && b) else roundPack (decide (s < 0)) s.natAbs (min e f) false

/-- The value with the other sign. -/
def Unpacked.neg : Unpacked → Unpacked
  | .nan => .nan
  | .inf a => .inf (!a)
  | .fin a m e => .fin (!a) m e

/-- `fl(x + y)`. -/
def fadd (x y : B64) : B64 := addUnpacked (unpack x) (unpack y) (nanResult .add x y)

/-- `fl(x - y)`. -/
def fsub (x y : B64) : B64 := addUnpacked (unpack x) (unpack y).neg (nanResult .sub x y)

/-- `fl(x * y)`. -/
def fmul (x y : B64) : B64 :=
  match unpack x, unpack y with
  | .nan, _ => nanResult .mul x y
  | _, .nan => nanResult .mul x y
  | .inf a, .inf b => infinity (a ^^ b)
  | .inf a, .fin b n _ => if n = 0 then nanResult .mul x y else infinity (a ^^ b)
  | .fin a m _, .inf b => if m = 0 then nanResult .mul x y else infinity (a ^^ b)
  | .fin a m e, .fin b n f => roundPack (a ^^ b) (m * n) (e + f) false

/-- `fl(x / y)`. The dividend is widened by 110 bits, so the quotient has at least 57 and its rest only marks
`sticky`. -/
def fdiv (x y : B64) : B64 :=
  match unpack x, unpack y with
  | .nan, _ => nanResult .div x y
  | _, .nan => nanResult .div x y
  | .inf _, .inf _ => nanResult .div x y
  | .inf a, .fin b _ _ => infinity (a ^^ b)
  | .fin a _ _, .inf b => zero (a ^^ b)
  | .fin a m e, .fin b n f =>
    if n = 0 then (if m = 0 then nanResult .div x y else infinity (a ^^ b))
    else roundPack (a ^^ b) (m * 2 ^ 110 / n) (e - f - 110) (decide (m * 2 ^ 110 % n ≠ 0))

/-- The radicand of a finite value as an integer with an even exponent `2 * h`: `m * 2^e = r * 2^(2*h)`. It is
widened by 120 bits, so that its integer root has at least 60. -/
def radicand (m : Nat) (e : Int) : Nat := m * 2 ^ (e % 2).toNat * 2 ^ 120

/-- `fsqrt(x)`: "the IEEE 754 correctly rounded square root" (R9). -/
def fsqrt (x : B64) : B64 :=
  match unpack x with
  | .nan => nanResult .sqrt x x
  | .inf a => if a then nanResult .sqrt x x else infinity false
  | .fin a m e =>
    if m = 0 then zero a
    else if a then nanResult .sqrt x x
    else
      let r := isqrt (radicand m e)
      roundPack false r (e / 2 - 60) (decide (r * r ≠ radicand m e))

/-- `fabs(x)` "clears the sign bit" (R9). -/
def fabs (x : B64) : B64 := x &&& 0x7FFFFFFFFFFFFFFF#64

/-- `-x`: "an exact sign flip" (spec/41_rotator.md R80). -/
def fneg (x : B64) : B64 := x ^^^ 0x8000000000000000#64

/-- `toF(i)`: an integer of at most 53 bits, exactly (R9). -/
def toF (i : Int) : B64 := roundPack (decide (i < 0)) i.natAbs 0 false

end Sys2Proof.Machine
end

