-- ==== Sys2Proof/WellFormed.lean ====
section
/-! DEFINITION. Which terms of the syntax mean something: a command word, a command, and a configuration that a
block may hold.

The checks the block's loader applies to the fields a host gives are behaviour, and stand in
Machine/Construct.lean; `LimiterConfig.wellFormed` is what every accepted configuration meets. -/

namespace Sys2Proof

/-- Bits 7:4 of a command word, `rsv` (spec/30_encoding.md R50). -/
def CmdWord.rsv (w : CmdWord) : BitVec 4 := w.extractLsb' 4 4

/-- Bits 3:0 of a command word, `op` (R50). -/
def CmdWord.op (w : CmdWord) : BitVec 4 := w.extractLsb' 0 4

/-- "reserved; must be 0000" (R50). -/
def CmdWord.rsvZero (w : CmdWord) : Bool := CmdWord.rsv w == 0#4

/-- `op` is one that R51 assigns: "`op` = 0000, `op` = 0100 to 1111" spell no command (R52). -/
def CmdWord.opAssigned (w : CmdWord) : Bool :=
  CmdWord.op w == 1#4 || CmdWord.op w == 2#4 || CmdWord.op w == 3#4

/-- A command word that spells a command (R51, R52). -/
def CmdWord.wellFormed (w : CmdWord) : Bool := CmdWord.rsvZero w && CmdWord.opAssigned w

/-- Every operand of a command is the whole value of a typed port (R53, R54), so the types leave no ill-formed
command. An operand the spec faults on (spec/42_encoder.md R86) is still a command's operand. -/
def Instr.wellFormed : Instr → Bool
  | .limit _ _ => true
  | .rotate _ _ _ => true
  | .tick _ => true

namespace LimiterConfig

/-- 1 <= MAX_MODULE <= 32767 (spec/10_state.md R28). -/
def maxModuleOk (c : LimiterConfig) : Bool :=
  decide (1 ≤ c.maxModule.toNat) && decide (c.maxModule.toNat ≤ 32767)

/-- 0 <= MAX_VD <= MAX_MODULE (R28). -/
def maxVdOk (c : LimiterConfig) : Bool := decide (c.maxVd.toNat ≤ c.maxModule.toNat)

/-- 0 <= START_INDEX <= 128 (R28). -/
def startIndexOk (c : LimiterConfig) : Bool := decide (c.startIndex.toNat ≤ 128)

/-- 0 <= TABLE[i] <= 32767 for every i (R28). -/
def tableRangeOk (c : LimiterConfig) : Bool :=
  decide (∀ i : Fin 87, (c.table[i.val]).toNat ≤ 32767)

/-- TABLE[i] >= TABLE[i+1] for i = 0 to 85 (R28): equal neighbours pass. -/
def tableMonotonicOk (c : LimiterConfig) : Bool :=
  decide (∀ i : Fin 86, (c.table[i.val + 1]).toNat ≤ (c.table[i.val]).toNat)

/-- Every check of R28 that a register's own type does not already settle: the table's length is its type, a
mode register holds one of its two values, and no register has a reserved number. -/
def wellFormed (c : LimiterConfig) : Bool :=
  c.maxModuleOk && c.maxVdOk && c.startIndexOk && c.tableRangeOk && c.tableMonotonicOk

/-- A legal configuration that names no product value: the least MAX_MODULE with everything else zero. It is
only what `legalOr` falls back on. -/
def least : LimiterConfig where
  maxModule := 1
  maxVd := 0
  startIndex := 0
  limitMode := .table
  indexPolicy := .clamp
  table := Vector.replicate 87 0

/-- `c` where it is legal. Over an unknown `c` this is an unknown LEGAL configuration: each of them arises. -/
def legalOr (c : LimiterConfig) : LimiterConfig := if c.wellFormed then c else least

end LimiterConfig

end Sys2Proof
end

