-- ==== Sys2Proof/Machine/State.lean ====
section
/-! DEFINITION. The block's state as plain data (spec/10_state.md), the reasons a command can stop
(spec/60_exceptions.md R122, R123), and the state right after reset. -/

namespace Sys2Proof.Machine

/-- The fault reasons: "The model has exactly three" (spec/60_exceptions.md R122). A fault means that the
operands or the configuration are outside the source's contract (R121); each is the spec's own, and safe. -/
inductive Fault where
  /-- Raised by LIMIT in TABLE mode under WRAP8 when `raw mod 256 >= 87`; records the unwrapped index
  (spec/40_limiter.md R65). Safe. -/
  | tableIndexOutOfRange (raw : Int)
  /-- Raised by ROTATE and TICK when an operand is NaN or infinite; records the command
  (spec/41_rotator.md R80, spec/42_encoder.md R86). Safe. -/
  | nonFiniteOperand (cmd : Command)
  /-- Raised by TICK when `carrierPeriod <= 0.0` or `busVoltage < 0.0`; records the port
  (spec/42_encoder.md R86). Safe. -/
  | invalidTickOperand (port : TickPort)
deriving DecidableEq, Repr

/-- The refusal reasons. The spec has exactly two (spec/60_exceptions.md R123); the other two are the model's
and no command of a constructed block meets them. -/
inductive Refusal where
  /-- The model's: an instruction without a meaning. No arm of `exec` answers it. Safe. -/
  | notModelled (mnemonic : String)
  /-- The spec's: raised by a step on a word that spells no command (spec/30_encoding.md R52). Safe. -/
  | reservedCommand (word : CmdWord)
  /-- The spec's: raised by a construction whose fields fail the named check (spec/10_state.md R28). Safe. -/
  | illFormedConfig (check : ConfigCheck)
  /-- The model's, for "No command has a step before step (3)" (spec/70_reset_and_hazards.md R142): a command or
  a reset for a block that was never constructed. The stuck state of log entry 11. Safe. -/
  | notConstructed
deriving DecidableEq, Repr

/-- What the fault mark records (spec/60_exceptions.md R124). -/
inductive Stop where
  | fault (r : Fault)
  | refused (r : Refusal)
deriving DecidableEq, Repr

/-- The block's two phases (spec/60_exceptions.md R127). -/
inductive Phase where
  /-- Before the block has a configuration: it has no run. -/
  | construction
  /-- After construction and reset: commands have a step. -/
  | run
deriving DecidableEq, Repr

/-- LIMIT's output ports (spec/30_encoding.md R53). -/
structure LimitOut where
  q_out : I16
  d_out : I16
deriving DecidableEq, Repr

/-- ROTATE's output ports (R53). -/
structure RotateOut where
  alpha : B64
  beta : B64
deriving DecidableEq, Repr

/-- TICK's nine output ports (R53, spec/42_encoder.md R104). -/
structure TickOut where
  U : B64
  V : B64
  W : B64
  /-- Radians. -/
  angle : B64
  sector : SectorCode
  carrierValue : B64
  T1 : B64
  T2 : B64
  Tz : B64
deriving DecidableEq, Repr

/-- The output ports as the last command left them for the host to read (spec/70_reset_and_hazards.md R149). No
command reads them (spec/10_state.md R34). -/
inductive OutputPorts where
  /-- No output is driven: after reset, and after a fault or a refusal (spec/60_exceptions.md R121). -/
  | undriven
  | limit (o : LimitOut)
  | rotate (o : RotateOut)
  | tick (o : TickOut)
deriving DecidableEq, Repr

/-- The state (spec/10_state.md R20): the configuration and the carrier; the fault mark, which R20 and
spec/60_exceptions.md R124 give a model; the phase (R127); the driven output ports; and the host's side of the
run, the actions it has still to take. There is no register file, no program counter and no flag (R31 to
R33). -/
structure State where
  /-- The phase (R127, spec/70_reset_and_hazards.md R142). -/
  phase : Phase
  /-- The configuration registers (R21). -/
  cfg : LimiterConfig
  /-- The carrier register, binary64 (R30). -/
  carrier : B64
  /-- The fault mark: the recorded fault or refusal, none if clear (R124). -/
  mark : Option Stop
  /-- The output ports (R53). -/
  out : OutputPorts
  /-- The MODEL's own field: the host actions still to come, oldest first (log entry 3). -/
  host : List HostAction
deriving DecidableEq, Repr

/-- The machine right after construction and reset (spec/10_state.md R35): `carrier` is +0.0, the mark is clear,
every configuration field holds the value loaded at construction (a free legal configuration, log entry 4),
nothing is driven and the host has issued nothing (log entries 3 and 8). -/
def State.reset : State where
  phase := .run
  cfg := LimiterConfig.legalOr Config.parameterSeed
  carrier := 0#64
  mark := none
  out := .undriven
  host := []

end Sys2Proof.Machine
end

