-- ==== Sys2Proof/Machine/Operands.lean ====
section
/-! DEFINITION. How a command reads its operands: the port types of spec/30_encoding.md R54 and the operand
checks of spec/60_exceptions.md R122 and R125. -/

namespace Sys2Proof.Machine

/-- An int16 port's bits "read as `sext_16`" (R54). -/
def readInt16 (x : I16) : Int := x.toInt

/-- An int16 output port's bits for an integer; every LIMIT result fits (spec/40_limiter.md R70). -/
def int16Port (v : Int) : I16 := BitVec.ofInt 16 v

/-- The `sector` port's code for a sector: its number, 1 to 6 (R54). -/
def sectorCode : Sector → SectorCode
  | .s1 => 1
  | .s2 => 2
  | .s3 => 3
  | .s4 => 4
  | .s5 => 5
  | .s6 => 6

/-- ROTATE's operand check: "if q, d or theta is not finite" (spec/41_rotator.md R80). -/
def rotateCheck (q d theta : B64) : Option Fault :=
  if isFinite q && isFinite d && isFinite theta then none else some (.nonFiniteOperand .rotate)

/-- All six operands of TICK are finite (spec/42_encoder.md R86, step 1). -/
def tickFinite (p : TickIn) : Bool :=
  isFinite p.alpha && isFinite p.beta && isFinite p.busVoltage && isFinite p.carrierPeriod &&
    isFinite p.secondaryInput && isFinite p.dt

/-- TICK's operand checks in R86's order: finiteness, then `Ts <= 0.0`, then `busVoltage < 0.0`. -/
def tickCheck (p : TickIn) : Option Fault :=
  if !tickFinite p then some (.nonFiniteOperand .tick)
  else if fle p.carrierPeriod (zero false) then some (.invalidTickOperand .carrierPeriod)
  else if flt p.busVoltage (zero false) then some (.invalidTickOperand .busVoltage)
  else none

end Sys2Proof.Machine
end

