-- ==== Sys2Proof/Machine/Ops.lean ====
section
/-! DEFINITION. The named operations over the block's storage and ports (spec/00_scope.md R10), ending a command
in a fault, and the host's reset.

The block raises no architectural exception: "no cause codes, no trap entry, no saved state, no vector and no
return-from-trap command" (spec/60_exceptions.md R120). What stands in their place is `raiseFault`, and the
mark that `settle` (Machine/Run.lean) records. There is no MemRead and no MemWrite (R10). -/

namespace Sys2Proof.Machine

/-- `TableRead(i)`, for an index 0 to 86 by its type (spec/20_memory.md R41); no side effect. -/
def tableRead (c : LimiterConfig) (i : Fin 87) : Int := (c.table[i.val]).toNat

/-- `carrier`: read the carrier register (R10). -/
def readCarrier (s : State) : B64 := s.carrier

/-- `carrier <- v` (R10). -/
def writeCarrier (v : B64) (s : State) : State := { s with carrier := v }

/-- `out.X <- v` for all of a command's output ports at once, at its end (R10, R11). -/
def drive (o : OutputPorts) (s : State) : State := { s with out := o }

/-- `raise Fault(reason)`: "the command ends in the fault outcome with that reason; none of its writes take
effect" (R10, spec/60_exceptions.md R121). -/
def raiseFault (r : Fault) : Host.Outcome State Fault Refusal := .fault r

/-- The reset action: `carrier` to +0.0, no fault or refusal recorded, the configuration as constructed
(spec/70_reset_and_hazards.md R140). A new run has driven no output yet (log entry 8). -/
def resetBlock (s : State) : State := { s with carrier := zero false, mark := none, out := .undriven }

end Sys2Proof.Machine
end

