-- ==== Sys2Proof/Machine/Limit.lean ====
section
/-! DEFINITION. LIMIT, the voltage-magnitude limiter (spec/40_limiter.md). All of it is exact integer
arithmetic (spec/00_scope.md R8). -/

namespace Sys2Proof.Machine

/-- `q*q + d*d`, exactly; it is never negative (R61). -/
def sumSq (q d : Int) : Nat := (q * q + d * d).toNat

/-- `cfg.MAX_MODULE` as an integer. -/
def maxModule (c : LimiterConfig) : Int := c.maxModule.toNat

/-- `cfg.MAX_VD` as an integer. -/
def maxVd (c : LimiterConfig) : Int := c.maxVd.toNat

/-- `cfg.START_INDEX` as an integer. -/
def startIndex (c : LimiterConfig) : Int := c.startIndex.toNat

/-- The in-circle test of the fast path, inclusive (R62). -/
def inCircle (c : LimiterConfig) (q d : Int) : Bool :=
  decide ((sumSq q d : Int) ≤ maxModule c * maxModule c)

/-- `raw = (sumSq >> 24) - START_INDEX` (R63). -/
def rawIndex (c : LimiterConfig) (q d : Int) : Int := ((sumSq q d >>> 24 : Nat) : Int) - startIndex c

/-- CLAMP: `idx = min(max(raw, 0), 86)` (R64). -/
def clampIndex (raw : Int) : Fin 87 := ⟨(min (max raw 0) 86).toNat, by omega⟩

/-- WRAP8: `idx = raw mod 256`, an index only below 87 (R65). -/
def wrapIndex (raw : Int) : Option (Fin 87) :=
  if h : modNat raw 256 < 87 then some ⟨modNat raw 256, h⟩ else none

/-- The table index under the configured policy (R64, R65). -/
def tableIndex (c : LimiterConfig) (raw : Int) : Option (Fin 87) :=
  match c.indexPolicy with
  | .clamp => some (clampIndex raw)
  | .wrap8 => wrapIndex raw

/-- `tdiv(v * k, 32768)`, truncated toward zero (R66). -/
def scale (v k : Int) : Int := tdiv (v * k) 32768

/-- EXACT mode's direct component: held within MAX_VD, else MAX_VD with the sign of `d` (R67, R68). -/
def exactD (c : LimiterConfig) (d : Int) : Int :=
  if (d.natAbs : Int) ≤ maxVd c then d else if d < 0 then -maxVd c else maxVd c

/-- EXACT mode's quadrature magnitude: `isqrt` of the budget that the held or saturated direct component leaves
(R67, R68). -/
def exactMq (c : LimiterConfig) (d : Int) : Int :=
  isqrt (maxModule c * maxModule c - exactD c d * exactD c d).toNat

/-- The sign of `q` on the quadrature magnitude; `q = 0` takes the non-negative one (R69). -/
def exactQ (c : LimiterConfig) (q d : Int) : Int := if q < 0 then -exactMq c d else exactMq c d

/-- LIMIT's result on integers, or its one fault (R60). -/
def limitResult (c : LimiterConfig) (q d : Int) : Except Fault (Int × Int) :=
  if inCircle c q d then .ok (q, d)
  else
    match c.limitMode with
    | .table =>
      match tableIndex c (rawIndex c q d) with
      | some i => .ok (scale q (tableRead c i), scale d (tableRead c i))
      | none => .error (.tableIndexOutOfRange (rawIndex c q d))
    | .exact => .ok (exactQ c q d, exactD c d)

/-- LIMIT (R60): it drives `q_out` and `d_out` and writes no state (R73). -/
def execLimit (q d : I16) (s : State) : Host.Outcome State Fault Refusal :=
  match limitResult s.cfg (readInt16 q) (readInt16 d) with
  | .ok r => .next (drive (.limit ⟨int16Port r.1, int16Port r.2⟩) s)
  | .error f => raiseFault f

end Sys2Proof.Machine
end

