-- ==== Sys2Proof/Machine/Numerics.lean ====
section
/-! DEFINITION. The numerics parameters of spec/42_encoder.md R107 and spec/00_scope.md R6, which every
operation that needs them takes as an argument, and the ones this machine uses.

The machine's functions are free within R107 and its two constants within R6: whatever the free values of Config
are, R107's (a) to (d) and R6's ranges hold of `numerics`, and nothing else can be proved of it. (e), that each
function depends only on its operands, is its type. -/

namespace Sys2Proof.Machine

/-- NUM_ATAN2, NUM_SIN, NUM_COS, K_2_SQRT3 and PI64 (spec/00_scope.md R6). -/
structure Numerics where
  /-- `NUM_ATAN2(y, x)`. -/
  atan2 : B64 → B64 → B64
  sin : B64 → B64
  cos : B64 → B64
  k2Sqrt3 : B64
  pi64 : B64

/-- 1.0. -/
def one : B64 := toF 1

/-- +0.0. -/
def posZero : B64 := zero false

/-- In [-1.0, 1.0] (R107 b). -/
def inUnit (v : B64) : Bool := fle (fneg one) v && fle v one

/-- What R107 (a), (d) ask of `NUM_ATAN2(y, x) = v`: finite on finite operands, and in [-`PI64`, `PI64`] on
finite operands not both zero. -/
def atan2Admits (pi64 y x v : B64) : Bool :=
  !(isFinite y && isFinite x) ||
    (isFinite v && ((isZero y && isZero x) || (fle (fneg pi64) v && fle v pi64)))

/-- What R107 (a), (b), (c) ask of `NUM_SIN(x) = v`; a value in [-1.0, 1.0] is finite. -/
def sinAdmits (x v : B64) : Bool := inUnit v && (x != posZero || v == posZero)

/-- What R107 (a), (b), (c) ask of `NUM_COS(x) = v`. -/
def cosAdmits (x v : B64) : Bool := inUnit v && (x != posZero || v == one)

/-- `PI64` and `K_2_SQRT3` are "finite, positive" (spec/00_scope.md R6). -/
def finitePositive (x : B64) : Bool := isFinite x && fgt x posZero

/-- The legal numerics: R107 (a) to (d) and R6's ranges. "A model may assume of them only the following." -/
def Numerics.Legal (N : Numerics) : Prop :=
  (∀ y x, atan2Admits N.pi64 y x (N.atan2 y x) = true) ∧
  (∀ x, sinAdmits x (N.sin x) = true) ∧
  (∀ x, cosAdmits x (N.cos x) = true) ∧
  finitePositive N.k2Sqrt3 = true ∧ finitePositive N.pi64 = true

/-- A parameter with a default (R6): the value given, where it is legal, else the default. -/
def finitePositiveOr (dflt : B64) : Option B64 → B64
  | some v => if finitePositive v then v else dflt
  | none => dflt

/-- PI64 of this machine: any legal value, and its default where none is given (R6). -/
def numPi64 : B64 := finitePositiveOr Config.pi64Default Config.pi64Arg

/-- K_2_SQRT3 of this machine: any legal value, and its default where none is given (R6). -/
def numK2Sqrt3 : B64 := finitePositiveOr Config.k2Sqrt3Default Config.k2Sqrt3Arg

/-- NUM_ATAN2 of this machine: the free function where R107 admits its value. -/
def numAtan2 (y x : B64) : B64 :=
  if atan2Admits numPi64 y x (Config.atan2Seed y x) then Config.atan2Seed y x else posZero

/-- NUM_SIN of this machine. -/
def numSin (x : B64) : B64 :=
  if sinAdmits x (Config.sinSeed x) then Config.sinSeed x else posZero

/-- NUM_COS of this machine. -/
def numCos (x : B64) : B64 :=
  if cosAdmits x (Config.cosSeed x) then Config.cosSeed x else one

/-- The numerics of this machine: one choice "fixed for a whole run", which no command changes (R6; log entries 5 and
7). -/
def numerics : Numerics where
  atan2 := numAtan2
  sin := numSin
  cos := numCos
  k2Sqrt3 := numK2Sqrt3
  pi64 := numPi64

end Sys2Proof.Machine
end

