-- ==== Sys2Proof/Machine/Rotate.lean ====
section
/-! DEFINITION. ROTATE, the frame-rotator interface stage (spec/41_rotator.md). -/

namespace Sys2Proof.Machine

/-- `alpha <- fl( fl(q * c) + fl(d * s) )` with `c = NUM_COS(theta)`, `s = NUM_SIN(theta)` (R80). -/
def rotateAlpha (N : Numerics) (q d theta : B64) : B64 :=
  fadd (fmul q (N.cos theta)) (fmul d (N.sin theta))

/-- `beta <- fl( fl((-q) * s) + fl(d * c) )` (R80). The formula is the source's, as written. -/
def rotateBeta (N : Numerics) (q d theta : B64) : B64 :=
  fadd (fmul (fneg q) (N.sin theta)) (fmul d (N.cos theta))

/-- ROTATE's two outputs under given numerics (R80). -/
def rotateOutputs (N : Numerics) (q d theta : B64) : RotateOut :=
  ⟨rotateAlpha N q d theta, rotateBeta N q d theta⟩

/-- ROTATE (R80): a pure function of its operands; it writes no state (R81). -/
def execRotate (q d theta : B64) (s : State) : Host.Outcome State Fault Refusal :=
  match rotateCheck q d theta with
  | some f => raiseFault f
  | none => .next (drive (.rotate (rotateOutputs numerics q d theta)) s)

end Sys2Proof.Machine
end

