-- ==== Sys2Proof/Machine/Tick.lean ====
section
/-! DEFINITION. TICK, the SVPWM encoder (spec/42_encoder.md): descale and polar form, the sector encoder, the
dwell-time calculator, the gate-comparator bank and the carrier integrator, in the source's step order. -/

namespace Sys2Proof.Machine

/-! ## Descale and polar form -/

/-- `fl(x / 16384.0)`, not clamped (R87). -/
def descale (x : B64) : B64 := fdiv x (toF 16384)

/-- `ang`: +0.0 for a zero vector of any zero signs, else `NUM_ATAN2(b, a)` (R88). -/
def angleOf (N : Numerics) (a b : B64) : B64 :=
  if feq a posZero && feq b posZero then posZero else N.atan2 b a

/-- `m = fsqrt(fl(fl(a*a) + fl(b*b)))` (R89). -/
def modIndex (a b : B64) : B64 := fsqrt (fadd (fmul a a) (fmul b b))

/-- `deg = fl(fl(ang * 180.0) / PI64)` (R90). -/
def degreesOf (N : Numerics) (ang : B64) : B64 := fdiv (fmul ang (toF 180)) N.pi64

/-! ## The sector encoder -/

/-- `Sector(deg)`: the first row of R91's table whose condition holds, and sector 1 when none does (R92). -/
def sectorOf (deg : B64) : Sector :=
  if fle posZero deg && fle deg (toF 60) then .s1
  else if flt (toF 60) deg && fle deg (toF 120) then .s2
  else if flt (toF 120) deg && fle deg (toF 180) then .s3
  else if flt (toF (-180)) deg && flt deg (toF (-120)) then .s4
  else if fle (toF (-120)) deg && flt deg (toF (-60)) then .s5
  else if fle (toF (-60)) deg && flt deg posZero then .s6
  else .s1

/-- The sector as an integer 1 to 6 (R91). -/
def sectorNumber (n : Sector) : Nat := (sectorCode n).toNat

/-- `Arg(j) = fl(fl(toF(j) * PI64) / 3.0)`, for `j` in 0 to 6 (R93). -/
def sectorAngle (N : Numerics) (j : Nat) : B64 := fdiv (fmul (toF j) N.pi64) (toF 3)

/-! ## The dwell-time calculator -/

/-- `km = fl(K_2_SQRT3 * m)` (R94). -/
def scaledIndex (N : Numerics) (m : B64) : B64 := fmul N.k2Sqrt3 m

/-- `del1 = fl(km * fl(fl(ca*sn) - fl(sa*cn)))` with `sn`, `cn` at `Arg(n)` (R94). -/
def del1 (N : Numerics) (n : Sector) (ang m : B64) : B64 :=
  fmul (scaledIndex N m)
    (fsub (fmul (N.cos ang) (N.sin (sectorAngle N (sectorNumber n))))
      (fmul (N.sin ang) (N.cos (sectorAngle N (sectorNumber n)))))

/-- `del2 = fl(km * fl(fl(sa*cp) - fl(ca*sp)))` with `sp`, `cp` at `Arg(n-1)` (R95). -/
def del2 (N : Numerics) (n : Sector) (ang m : B64) : B64 :=
  fmul (scaledIndex N m)
    (fsub (fmul (N.sin ang) (N.cos (sectorAngle N (sectorNumber n - 1))))
      (fmul (N.cos ang) (N.sin (sectorAngle N (sectorNumber n - 1)))))

/-- `del3 = fl(fl(1.0 - fabs(del1)) - fabs(del2))`, not clamped (R96). -/
def del3 (d1 d2 : B64) : B64 := fsub (fsub one (fabs d1)) (fabs d2)

/-- The gate times of one TICK, "never persisted across ticks" (R98, spec/10_state.md R34). -/
structure GateTimes where
  ta : B64
  tb : B64
  tc : B64
  td : B64
deriving DecidableEq, Repr

/-- `td = fl(Tz / 2.0)`, `ta = fl(fl(T1 + T2) + td)`, `tb = fl(T1 + td)`, `tc = fl(T2 + td)` (R98). -/
def gateTimes (T1 T2 Tz : B64) : GateTimes where
  ta := fadd (fadd T1 T2) (fdiv Tz (toF 2))
  tb := fadd T1 (fdiv Tz (toF 2))
  tc := fadd T2 (fdiv Tz (toF 2))
  td := fdiv Tz (toF 2)

/-! ## The gate-comparator bank -/

/-- The threshold map `(p1, p2, p3)`, "this fixed table" (R99). -/
def thresholds (n : Sector) (g : GateTimes) : B64 × B64 × B64 :=
  match n with
  | .s1 => (g.ta, g.tc, g.td)
  | .s2 => (g.tb, g.ta, g.td)
  | .s3 => (g.td, g.ta, g.tc)
  | .s4 => (g.td, g.tb, g.ta)
  | .s5 => (g.tc, g.td, g.ta)
  | .s6 => (g.ta, g.td, g.tb)

/-- `L(p)`: `busVoltage` bit for bit if `p > c0`, strictly, else +0.0 (R100). -/
def comparator (busVoltage c0 p : B64) : B64 := if fgt p c0 then busVoltage else posZero

/-! ## The carrier integrator -/

/-- `fl(c0 + fl(dt * fl(secondaryInput - 0.5)))`: one forward-Euler step, neither wrapped nor bounded (R102). -/
def carrierNext (c0 secondaryInput dt : B64) : B64 :=
  fadd c0 (fmul dt (fsub secondaryInput 0x3FE0000000000000#64))

/-! ## The command -/

/-- TICK's nine outputs from its operands and the carrier before it (R85, R103, R104). -/
def tickOutputs (N : Numerics) (p : TickIn) (c0 : B64) : TickOut :=
  let a := descale p.alpha
  let b := descale p.beta
  let ang := angleOf N a b
  let m := modIndex a b
  let n := sectorOf (degreesOf N ang)
  let d1 := del1 N n ang m
  let d2 := del2 N n ang m
  let T1 := fmul d1 p.carrierPeriod
  let T2 := fmul d2 p.carrierPeriod
  let Tz := fmul (del3 d1 d2) p.carrierPeriod
  let t := thresholds n (gateTimes T1 T2 Tz)
  { U := comparator p.busVoltage c0 t.1
    V := comparator p.busVoltage c0 t.2.1
    W := comparator p.busVoltage c0 t.2.2
    angle := ang
    sector := sectorCode n
    carrierValue := c0
    T1 := T1
    T2 := T2
    Tz := Tz }

/-- TICK under given numerics: the checks of R86, then the outputs from the carrier before the tick, then the
carrier's new value (R85, R103). -/
def tickWith (N : Numerics) (p : TickIn) (s : State) : Host.Outcome State Fault Refusal :=
  match tickCheck p with
  | some f => raiseFault f
  | none =>
    .next (writeCarrier (carrierNext (readCarrier s) p.secondaryInput p.dt)
      (drive (.tick (tickOutputs N p (readCarrier s))) s))

/-- TICK (R85). -/
def execTick (p : TickIn) (s : State) : Host.Outcome State Fault Refusal := tickWith numerics p s

end Sys2Proof.Machine
end

