-- ==== Sys2Proof/Machine/Dispatch.lean ====
section
/-! DEFINITION. One arm per command (spec/30_encoding.md R51). -/

namespace Sys2Proof.Machine

def exec (i : Instr) (s : State) : Host.Outcome State Fault Refusal :=
  match i with
  | .limit q d => Sys2Proof.Machine.execLimit q d s
  | .rotate q d theta => Sys2Proof.Machine.execRotate q d theta s
  | .tick p => Sys2Proof.Machine.execTick p s

end Sys2Proof.Machine
end

