-- ==== Sys2Proof/Decode.lean ====
section
/-! DEFINITION. Decoding what the host presents into a command, total on every word, and the encoder
(spec/30_encoding.md R50 to R54). -/

namespace Sys2Proof

/-- Why a word is no command; the one reason is R52's. -/
inductive DecodeError where
  /-- The word spells no command. -/
  | reservedCommand (word : CmdWord)
deriving DecidableEq, Repr

/-- The `op` of each command (R51). -/
def Command.op : Command → BitVec 4
  | .limit => 0b0001#4
  | .rotate => 0b0010#4
  | .tick => 0b0011#4

/-- The command word of each command: `rsv` = 0000 above `op` (R50, R51). -/
def Command.word (c : Command) : CmdWord := 0b0000#4 ++ Command.op c

/-- The command that a selector selects (R51); none for the reserved selectors (R52). -/
def commandOfOp (op : BitVec 4) : Option Command :=
  if op = 0b0001#4 then some .limit
  else if op = 0b0010#4 then some .rotate
  else if op = 0b0011#4 then some .tick
  else none

/-- The command a word spells. A word with `rsv` not 0000 spells none (R52). -/
def decodeWord (w : CmdWord) : Option Command :=
  if CmdWord.rsv w = 0b0000#4 then commandOfOp (CmdWord.op w) else none

/-- A command with the operand values its own ports hold, in R53's order. -/
def readOperands (c : Command) (p : InputPorts) : Instr :=
  match c with
  | .limit => .limit p.limit.q p.limit.d
  | .rotate => .rotate p.rotate.q p.rotate.d p.rotate.theta
  | .tick => .tick p.tick

/-- Decoding: the word first, and its operands only if it spells a command (spec/60_exceptions.md R125). -/
def decode (c : Presented) : Except DecodeError Instr :=
  match decodeWord c.word with
  | some k => .ok (readOperands k c.ports)
  | none => .error (.reservedCommand c.word)

/-- Every port at zero: what the ports of the other commands hold when one command is encoded (log entry 16). -/
def InputPorts.zero : InputPorts where
  limit := ⟨0, 0⟩
  rotate := ⟨0, 0, 0⟩
  tick := ⟨0, 0, 0, 0, 0, 0⟩

/-- The encoder: the command's word of R51, its operands on its own ports. -/
def encode : Instr → Presented
  | .limit q d => ⟨Command.word .limit, { InputPorts.zero with limit := ⟨q, d⟩ }⟩
  | .rotate q d theta => ⟨Command.word .rotate, { InputPorts.zero with rotate := ⟨q, d, theta⟩ }⟩
  | .tick p => ⟨Command.word .tick, { InputPorts.zero with tick := p }⟩

/-- What the input ports hold when a word is presented by itself, for the host's check of one word. Every port is
zero but `carrierPeriod`, which is 1.0: the word gives the operands no bits, and on a zero period TICK is
outside its contract (spec/42_encoder.md R86). DESIGN CHOICE (log entry 12). -/
def neutralPorts : InputPorts :=
  { InputPorts.zero with tick := ⟨0, 0, 0, 0x3FF0000000000000#64, 0, 0⟩ }

/-- A word of `nbits` bits presented by itself. -/
def presentWord (nbits w : Nat) : Presented := ⟨BitVec.ofNat 8 (w % 2 ^ nbits), neutralPorts⟩

/-- What the decoder reads from the word `w` of a row of spec/opcode_table.json. -/
def decodeTableWord (nbits w : Nat) : Option Instr :=
  match decode (presentWord nbits w) with
  | .ok i => some i
  | .error _ => none

end Sys2Proof
end

