-- ==== Sys2Proof/Machine/Construct.lean ====
section
/-! DEFINITION. Construction, the block's boot (spec/70_reset_and_hazards.md R142): the host supplies the
numbered fields of spec/10_state.md R21, the named checks of R28 are applied, and a reset follows. -/

namespace Sys2Proof.Machine

/-- The field number of TABLE[i] (R21). -/
def tableField (i : Nat) : Nat := 0x40 + i

/-- Every value the host gives for one field number. A host "must supply every field"
(spec/70_reset_and_hazards.md R149), so a checked field has exactly one (log entry 10). -/
def given (fs : List (Nat × Int)) (n : Nat) : List Int :=
  (fs.filter (fun f => f.1 == n)).map (fun f => f.2)

/-- The value given for a field, where there is exactly one. -/
def soleValue (fs : List (Nat × Int)) (n : Nat) : Option Int :=
  match given fs n with
  | [v] => some v
  | _ => none

/-- A field number with no field: "0x05 to 0x3F or above 0x96" (R28). -/
def reservedField (n : Nat) : Bool :=
  (decide (0x05 ≤ n) && decide (n ≤ 0x3F)) || decide (0x96 < n)

/-- A given value lies in a range. -/
def valueIn (lo hi : Int) : Option Int → Bool
  | some v => decide (lo ≤ v) && decide (v ≤ hi)
  | none => false

/-- The named checks of R28, each on the fields as the host gave them.

DESIGN CHOICE (log entry 10): R28 does not say which check an 88th table entry fails. One given as field 0x97 has a
reserved number and fails `noReserved`, and `tableLength` counts the fields 0x40 to 0x96 only; one given as a second
value of a field 0x40 to 0x96 fails `tableLength`. -/
def passes (fs : List (Nat × Int)) : ConfigCheck → Bool
  | .maxModuleRange => valueIn 1 32767 (soleValue fs 0x00)
  | .maxVdRange =>
    match soleValue fs 0x00 with
    | some m => valueIn 0 m (soleValue fs 0x01)
    | none => false
  | .startIndexRange => valueIn 0 128 (soleValue fs 0x02)
  | .tableLength => (List.range 87).all fun i => (given fs (tableField i)).length == 1
  | .tableRange =>
    (List.range 87).all fun i =>
      (given fs (tableField i)).all fun v => decide (0 ≤ v) && decide (v ≤ 32767)
  | .tableMonotonic =>
    (List.range 86).all fun i =>
      (given fs (tableField i)).all fun v =>
        (given fs (tableField (i + 1))).all fun w => decide (w ≤ v)
  | .modeValue => valueIn 0 1 (soleValue fs 0x03)
  | .policyValue => valueIn 0 1 (soleValue fs 0x04)
  | .noReserved => fs.all fun f => !reservedField f.1

/-- The checks in the table's order (R28). -/
def allChecks : List ConfigCheck :=
  [.maxModuleRange, .maxVdRange, .startIndexRange, .tableLength, .tableRange, .tableMonotonic, .modeValue,
    .policyValue, .noReserved]

/-- The check that a construction is refused with: the first of the table that fails (DEDUCED from vector V-K1,
log entry 9); none if every check passes. -/
def failingCheck (fs : List (Nat × Int)) : Option ConfigCheck := allChecks.find? fun c => !passes fs c

/-- The value loaded into a field's register. -/
def loaded (fs : List (Nat × Int)) (n : Nat) : Int := (soleValue fs n).getD 0

/-- LIMIT_MODE's code (R21). -/
def modeOfCode (v : Int) : LimitMode := if v = 0 then .table else .exact

/-- INDEX_POLICY's code (R21). -/
def policyOfCode (v : Int) : IndexPolicy := if v = 0 then .clamp else .wrap8

/-- The configuration registers that a list of fields loads, each at its width (R21). -/
def configOf (fs : List (Nat × Int)) : LimiterConfig where
  maxModule := BitVec.ofInt 16 (loaded fs 0x00)
  maxVd := BitVec.ofInt 16 (loaded fs 0x01)
  startIndex := BitVec.ofInt 8 (loaded fs 0x02)
  limitMode := modeOfCode (loaded fs 0x03)
  indexPolicy := policyOfCode (loaded fs 0x04)
  table := Vector.ofFn fun i : Fin 87 => BitVec.ofInt 16 (loaded fs (tableField i.val))

/-- Construction (spec/70_reset_and_hazards.md R142): check, load, reset, and the run begins; or "construction is
refused with reason `IllFormedConfig(check)`" (R28). -/
def construct (fs : List (Nat × Int)) (s : State) : Host.Outcome State Fault Refusal :=
  match failingCheck fs with
  | some c => .refused (.illFormedConfig c)
  | none => .next (resetBlock { s with phase := .run, cfg := configOf fs })

/-! ## The parameters of spec/00_scope.md R6 as fields -/

/-- The limiter's parameters. P_MAX_VD and P_INDEX_POLICY have defaults (R6). The encoder's and the rotator's are no
configuration fields (spec/10_state.md R21); they are the fields of `Numerics`. -/
structure Parameters where
  pMaxModule : Int
  pMaxVd : Option Int
  pStartIndex : Int
  pTable : List Int
  pLimitMode : LimitMode
  pIndexPolicy : Option IndexPolicy
deriving DecidableEq, Repr

/-- The default of P_MAX_VD: `floor(P_MAX_MODULE * 95 / 100)` (spec/10_state.md R23). -/
def defaultMaxVd (pMaxModule : Int) : Int := pMaxModule * 95 / 100

/-- LIMIT_MODE's code: 0 = TABLE, 1 = EXACT (R21). -/
def codeOfMode : LimitMode → Int
  | .table => 0
  | .exact => 1

/-- INDEX_POLICY's code: 0 = CLAMP, 1 = WRAP8 (R21). -/
def codeOfPolicy : IndexPolicy → Int
  | .clamp => 0
  | .wrap8 => 1

/-- The table's entries numbered on from a field number. -/
def tableFields (n : Nat) : List Int → List (Nat × Int)
  | [] => []
  | v :: vs => (n, v) :: tableFields (n + 1) vs

/-- The fields a host supplies for given parameters, with R6's defaults where a parameter has one. -/
def parameterFields (p : Parameters) : List (Nat × Int) :=
  [(0x00, p.pMaxModule), (0x01, p.pMaxVd.getD (defaultMaxVd p.pMaxModule)), (0x02, p.pStartIndex),
    (0x03, codeOfMode p.pLimitMode), (0x04, codeOfPolicy (p.pIndexPolicy.getD .clamp))]
    ++ tableFields (tableField 0) p.pTable

end Sys2Proof.Machine
end

