-- ==== Sys2Proof/Machine/Issue.lean ====
section
/-! DEFINITION. What each host action does to the block (spec/70_reset_and_hazards.md R149). -/

namespace Sys2Proof.Machine

/-- The outcome that a recorded stop repeats. -/
def stopOutcome : Stop → Host.Outcome State Fault Refusal
  | .fault r => .fault r
  | .refused r => .refused r

/-- Why no command has a step, if none has: the recorded fault or refusal ("No later command has a step",
spec/60_exceptions.md R124), or a block that was never constructed (spec/70_reset_and_hazards.md R142). DESIGN
CHOICE: "no step" is answered by the recorded reason again (log entry 2). -/
def barred (s : State) : Option Stop :=
  match s.mark with
  | some r => some r
  | none => if s.phase = .run then none else some (.refused .notConstructed)

/-- A command: its word is looked at first (R125); a word that spells none is refused (spec/30_encoding.md
R52); else the command runs on the operands its ports hold. -/
def issueCommand (c : Presented) (s : State) : Host.Outcome State Fault Refusal :=
  match barred s with
  | some r => stopOutcome r
  | none =>
    match decode c with
    | .ok i => exec i s
    | .error (.reservedCommand w) => .refused (.reservedCommand w)

/-- The reset action: it needs a constructed block, since "A refused construction has no run to reset"
(spec/60_exceptions.md R124). -/
def issueReset (s : State) : Host.Outcome State Fault Refusal :=
  if s.phase = .run then .next (resetBlock s) else .refused .notConstructed

/-- One host action. A construction may be entered in any state: it is the host's alone (R127). -/
def takeAction (a : HostAction) (s : State) : Host.Outcome State Fault Refusal :=
  match a with
  | .construct fs => construct fs s
  | .reset => issueReset s
  | .command c => issueCommand c s

end Sys2Proof.Machine
end

