-- ==== Sys2Proof/Machine/Step.lean ====
section
/-! DEFINITION. One step of the machine: the next host action, if the host has one to take
(spec/70_reset_and_hazards.md R149). What an action does stands in Machine/Issue.lean. -/

namespace Sys2Proof.Machine

/-- One step. With no action pending the block does nothing: "It does nothing between commands"
(spec/60_exceptions.md R132). -/
def step (s : State) : Host.Outcome State Fault Refusal :=
  match s.host with
  | [] => .next s
  | a :: rest => takeAction a { s with host := rest }

/-- `s` with the word `w` as the next command the host issues. The block has no program counter and fetches
nothing (spec/10_state.md R32, spec/20_memory.md R48): a command comes to run because the host presents it, so
this puts it first in the list of the host's actions (log entry 12). -/
def State.withFetchWord (s : State) (nbits w : Nat) : State :=
  { s with host := .command (presentWord nbits w) :: s.host }

end Sys2Proof.Machine
end

