-- ==== Sys2Proof/Machine/Run.lean ====
section
/-! DEFINITION. A run as the spec describes it: after a fault or a refusal the model "records the reason and
keeps it" (spec/60_exceptions.md R124). A fault outcome of the host's interface carries no state, so the
recording stands here, beside the step (log entry 1). -/

namespace Sys2Proof.Machine

/-- The state that ends a faulted or refused action: the action is over, no write took effect, no output is
driven, and the reason is recorded (R121). -/
def recordStop (r : Stop) (s : State) : State :=
  { s with host := s.host.tail, mark := some r, out := .undriven }

/-- The state after a step's outcome (R121). A refused construction leaves no run (R123): the block is in the
construction phase, and its reason is the one recorded (log entry 13). DESIGN CHOICE there: when an earlier fault or
refusal was recorded, R124 keeps that one and R123 records this one, and neither says which stands; this one replaces
it. An action for a block that was never constructed has no step and records nothing. -/
def settle (s : State) : Host.Outcome State Fault Refusal → State
  | .next t => t
  | .fault r => recordStop (.fault r) s
  | .refused (.illFormedConfig c) =>
    { recordStop (.refused (.illFormedConfig c)) s with phase := .construction }
  | .refused .notConstructed => { s with host := s.host.tail }
  | .refused r => recordStop (.refused r) s

/-- One host action with its record: what `step` answers, settled. -/
def advance (s : State) : State := settle s (step s)

/-- `n` host actions, one after another, each seeing every write of the earlier ones (spec/20_memory.md R46). -/
def advanceN : Nat → State → State
  | 0, s => s
  | n + 1, s => advanceN n (advance s)

end Sys2Proof.Machine
end

