-- ==== Sys2Proof/Machine/Pipe.lean ====
section
/-! DEFINITION. PIPE, the one pseudo-instruction (spec/30_encoding.md R56): the source's per-tick pipeline
"Limiter → Rotator → Encoder". It is no command word; the host issues three commands and carries each result
to the next one's ports (spec/70_reset_and_hazards.md R144). -/

namespace Sys2Proof.Machine

/-- The operands of PIPE, in R56's order. -/
structure PipeIn where
  q : I16
  d : I16
  theta : B64
  busVoltage : B64
  carrierPeriod : B64
  secondaryInput : B64
  dt : B64
deriving DecidableEq, Repr

/-- The host issues one command as its next action, and the block takes it. -/
def issue (i : Instr) (s : State) : Host.Outcome State Fault Refusal :=
  step { s with host := .command (encode i) :: s.host }

/-- `toF(x)` of an int16 output port (R55). -/
def portToF (x : I16) : B64 := toF (readInt16 x)

/-- ROTATE's operands from LIMIT's results: `ROTATE toF(q1), toF(d1), theta` (R56). -/
def pipeRotate (p : PipeIn) (o : LimitOut) : Instr := .rotate (portToF o.q_out) (portToF o.d_out) p.theta

/-- TICK's operands from ROTATE's results (R56). -/
def pipeTick (p : PipeIn) (o : RotateOut) : Instr :=
  .tick ⟨o.alpha, o.beta, p.busVoltage, p.carrierPeriod, p.secondaryInput, p.dt⟩

/-- PIPE: "exactly three commands, in order"; "If any of the three commands faults, the later ones are not
issued" (R56). A command that completes drives its own ports, so the other cases do not arise; there the state
is answered as it stands. -/
def pipe (p : PipeIn) (s : State) : Host.Outcome State Fault Refusal :=
  match issue (.limit p.q p.d) s with
  | .next s1 =>
    match s1.out with
    | .limit o1 =>
      match issue (pipeRotate p o1) s1 with
      | .next s2 =>
        match s2.out with
        | .rotate o2 => issue (pipeTick p o2) s2
        | _ => .next s2
      | .fault r => .fault r
      | .refused r => .refused r
    | _ => .next s1
  | .fault r => .fault r
  | .refused r => .refused r

end Sys2Proof.Machine
end

