-- ==== Sys2Proof/Safety.lean ====
section
/-! DEFINITION. What counts as a good state of the block, in the terms its claims use. -/

namespace Sys2Proof.Machine

/-- No fault and no refusal is recorded: "Every claim must assume that none was recorded"
(spec/60_exceptions.md R124). -/
def State.unmarked (s : State) : Bool := s.mark.isNone

/-- The block can take a command: it was constructed, and nothing is recorded (R124, R127). -/
def State.ready (s : State) : Bool := s.phase == .run && s.unmarked

/-- A block in its run phase holds a configuration that passed the checks (spec/10_state.md R28). -/
def State.cfgLegal (s : State) : Bool := s.phase != .run || s.cfg.wellFormed

/-- A phase output is never a NaN, never infinite and never below zero: it is +0.0 or a `busVoltage` that passed
TICK's checks (spec/42_encoder.md R86, R106). -/
def levelOk (x : B64) : Bool := isFinite x && !flt x (zero false)

/-- The magnitude of a LIMIT result, squared. -/
def magnitudeSq (o : LimitOut) : Int :=
  readInt16 o.q_out * readInt16 o.q_out + readInt16 o.d_out * readInt16 o.d_out

/-- What the driven ports may show. The `sector` port "carries only the values 1 to 6" (spec/30_encoding.md
R54); the phase outputs are levels; and in EXACT mode a LIMIT result lies in the circle of radius MAX_MODULE
(spec/40_limiter.md R71). -/
def outputsLegal (c : LimiterConfig) : OutputPorts → Bool
  | .undriven => true
  | .rotate _ => true
  | .limit o => c.limitMode != .exact || decide (magnitudeSq o ≤ maxModule c * maxModule c)
  | .tick o =>
    decide (1 ≤ o.sector.toNat) && decide (o.sector.toNat ≤ 6) && levelOk o.U && levelOk o.V && levelOk o.W

/-- The invariant of the machine: a legal configuration in the run phase, and legal outputs on the ports; a block
that was never constructed drives nothing. -/
def State.Inv (s : State) : Bool :=
  s.cfgLegal &&
    (match s.phase with
     | .run => outputsLegal s.cfg s.out
     | .construction => s.out == .undriven)

/-! ## Operands and frames -/

/-- TICK executes normally on these operands: all finite, `carrierPeriod` not `<= 0.0`, `busVoltage` not `< 0.0`
(spec/42_encoder.md R86). -/
def tickValid (p : TickIn) : Bool :=
  tickFinite p && !fle p.carrierPeriod (zero false) && !flt p.busVoltage (zero false)

/-- Everything but the output ports is as before: the phase, every configuration register and with them every
table entry, the carrier, the mark, and the host's list. -/
def sameButPorts (s t : State) : Prop :=
  t.phase = s.phase ∧ t.cfg = s.cfg ∧ (∀ i, tableRead t.cfg i = tableRead s.cfg i) ∧
    t.carrier = s.carrier ∧ t.mark = s.mark ∧ t.host = s.host

/-- Everything but the output ports and the carrier is as before. -/
def sameButPortsAndCarrier (s t : State) : Prop :=
  t.phase = s.phase ∧ t.cfg = s.cfg ∧ (∀ i, tableRead t.cfg i = tableRead s.cfg i) ∧
    t.mark = s.mark ∧ t.host = s.host

/-- The condition on `deg` of each row of spec/42_encoder.md R91. -/
def wedge (deg : B64) : Sector → Bool
  | .s1 => fle (toF 0) deg && fle deg (toF 60)
  | .s2 => flt (toF 60) deg && fle deg (toF 120)
  | .s3 => flt (toF 120) deg && fle deg (toF 180)
  | .s4 => flt (toF (-180)) deg && flt deg (toF (-120))
  | .s5 => fle (toF (-120)) deg && flt deg (toF (-60))
  | .s6 => fle (toF (-60)) deg && flt deg (toF 0)

/-! ## What R28 asks of the fields a host gives -/

/-- A field is given once, with this value. -/
def FieldIs (fs : List (Nat × Int)) (n : Nat) (v : Int) : Prop :=
  (n, v) ∈ fs ∧ fs.countP (fun f => f.1 == n) = 1

/-- The condition of each row of R28's table (spec/10_state.md), on the fields by R21's numbers. What a row says of a
field that is not given, or given twice, and of an 88th table entry, is log entry 10. -/
def CheckHolds (fs : List (Nat × Int)) : ConfigCheck → Prop
  | .maxModuleRange => ∃ m, FieldIs fs 0x00 m ∧ 1 ≤ m ∧ m ≤ 32767
  | .maxVdRange => ∃ m v, FieldIs fs 0x00 m ∧ FieldIs fs 0x01 v ∧ 0 ≤ v ∧ v ≤ m
  | .startIndexRange => ∃ v, FieldIs fs 0x02 v ∧ 0 ≤ v ∧ v ≤ 128
  | .tableLength => ∀ i, i < 87 → ∃ v, FieldIs fs (0x40 + i) v
  | .tableRange => ∀ i, i < 87 → ∀ v, (0x40 + i, v) ∈ fs → 0 ≤ v ∧ v ≤ 32767
  | .tableMonotonic => ∀ i, i ≤ 85 → ∀ v w, (0x40 + i, v) ∈ fs → (0x40 + (i + 1), w) ∈ fs → w ≤ v
  | .modeValue => ∃ v, FieldIs fs 0x03 v ∧ (v = codeOfMode .table ∨ v = codeOfMode .exact)
  | .policyValue => ∃ v, FieldIs fs 0x04 v ∧ (v = codeOfPolicy .clamp ∨ v = codeOfPolicy .wrap8)
  | .noReserved => ∀ f ∈ fs, ¬(0x05 ≤ f.1 ∧ f.1 ≤ 0x3F) ∧ ¬0x96 < f.1

/-! ## What a binary64 value is, for the claims about rounding -/

/-- The number a finite binary64 value stands for (spec/30_encoding.md R54); 0 for the others, of which no claim
takes a value. -/
def floatValue (x : B64) : ℚ :=
  match unpack x with
  | .fin neg m e => (if neg then -1 else 1) * (m : ℚ) * (2 : ℚ) ^ e
  | .inf _ => 0
  | .nan => 0

/-- Half a unit past the largest finite value: from here on, rounding to nearest gives an infinity. -/
def overflowBound : ℝ := (2 ^ 54 - 1) * 2 ^ 970

/-- `r` is `v` rounded "to nearest with ties to even" (spec/00_scope.md R9): no finite value lies nearer, and if
another lies as near, the last fraction bit of `r` is 0; from `overflowBound` on, `r` is the infinity of `v`'s
sign. -/
def CorrectlyRounded (v : ℝ) (r : B64) : Prop :=
  (|v| < overflowBound →
    isFinite r = true ∧
    ∀ z : B64, isFinite z = true →
      |(floatValue r : ℝ) - v| ≤ |(floatValue z : ℝ) - v| ∧
      (|(floatValue r : ℝ) - v| = |(floatValue z : ℝ) - v| → floatValue z ≠ floatValue r →
        fracField r % 2 = 0)) ∧
  (overflowBound ≤ |v| → r = infinity (decide (v < 0)))

end Sys2Proof.Machine
end

