-- ==== Sys2Proof/Certificates/Slice0/Obligations.lean ====
section
/-! DEFINITION. The statements for the provers. Each docstring names the rule of spec/ it rests on; where a clause
is the model's own choice, it names the log entry. -/

open Sys2Proof Sys2Proof.Machine

/-! ## Command words (spec/30_encoding.md) -/

/-- R51: the three words, whatever is on the ports, each with the operands its own ports hold. -/
def Obligations.CommandWordsDecode : Prop :=
  ∀ p : InputPorts,
    decode ⟨0x01#8, p⟩ = .ok (.limit p.limit.q p.limit.d) ∧
    decode ⟨0x02#8, p⟩ = .ok (.rotate p.rotate.q p.rotate.d p.rotate.theta) ∧
    decode ⟨0x03#8, p⟩ = .ok (.tick p.tick)

/-- R52: every other word is refused, "has no effect on the state and produces no output", whatever is on the
ports (R125: the word is looked at first). -/
def Obligations.ReservedWordsRefused : Prop :=
  ∀ (w : CmdWord) (ports : InputPorts) (s : State) (rest : List HostAction),
    w ≠ 0x01#8 → w ≠ 0x02#8 → w ≠ 0x03#8 → s.ready = true → s.host = .command ⟨w, ports⟩ :: rest →
    step s = .refused (.reservedCommand w) ∧
    advance s = { s with host := rest, mark := some (.refused (.reservedCommand w)), out := .undriven }

/-- R50 to R54: encoding a well-formed command and decoding it gives it back, with every operand; and what is
decoded as `i` is exactly the word of `i` with the operands of `i` on the ports of that command (that the other
ports do not matter is log entry 16). -/
def Obligations.DecodeAndEncodeAgree : Prop :=
  (∀ i : Instr, i.wellFormed = true → decode (encode i) = .ok i) ∧
  ∀ (c : Presented) (i : Instr),
    decode c = .ok i ↔ c.word = (encode i).word ∧ readOperands i.command c.ports = i

/-! ## A step -/

/-- A step runs the decoded command: a block that can take a command runs what the next presented word decodes to,
on the state without that action (R46; the host's list is log entry 3). The same for a word placed by
`withFetchWord` (log entry 12). -/
def Obligations.StepRunsDecodedCommand : Prop :=
  (∀ (s : State) (c : Presented) (rest : List HostAction) (i : Instr),
    s.ready = true → s.host = .command c :: rest → decode c = .ok i → i.wellFormed = true →
    step s = exec i { s with host := rest }) ∧
  ∀ (s : State) (nbits w : Nat) (i : Instr),
    s.ready = true → decodeTableWord nbits w = some i → step (s.withFetchWord nbits w) = exec i s

/-- R132: with no action of the host pending, nothing changes (that waiting is a step is log entry 3). -/
def Obligations.NothingBetweenCommands : Prop :=
  ∀ s : State, s.host = [] → step s = .next s

/-! ## LIMIT (spec/40_limiter.md) -/

/-- R61: the range of the sum of squares and where its top value occurs. -/
def Obligations.SumOfSquaresRange : Prop :=
  ∀ q d : I16,
    (sumSq (readInt16 q) (readInt16 d) : Int) = q.toInt * q.toInt + d.toInt * d.toInt ∧
    sumSq (readInt16 q) (readInt16 d) ≤ 2 ^ 31 ∧
    (sumSq (readInt16 q) (readInt16 d) = 2 ^ 31 ↔ q.toInt = -32768 ∧ d.toInt = -32768) ∧
    (¬(q.toInt = -32768 ∧ d.toInt = -32768) → sumSq (readInt16 q) (readInt16 d) ≤ 2 ^ 31 - 65535)

/-- R62: inside the circle, boundary included, the operands pass unchanged, in both modes. -/
def Obligations.LimitInsideCircleUnchanged : Prop :=
  ∀ (q d : I16) (s : State),
    q.toInt * q.toInt + d.toInt * d.toInt ≤ (s.cfg.maxModule.toNat : Int) * s.cfg.maxModule.toNat →
    exec (.limit q d) s = .next { s with out := .limit ⟨q, d⟩ }

/-- R63: the bucket lies in 0 to 128, it is 128 only for a sum of 2^31, and the raw index is the bucket less
START_INDEX, in -128 to 128. -/
def Obligations.BucketIndexRange : Prop :=
  ∀ (q d : I16) (c : LimiterConfig), c.wellFormed = true →
    rawIndex c (readInt16 q) (readInt16 d) =
      (q.toInt * q.toInt + d.toInt * d.toInt) / 2 ^ 24 - (c.startIndex.toNat : Int) ∧
    0 ≤ (q.toInt * q.toInt + d.toInt * d.toInt) / 2 ^ 24 ∧
    (q.toInt * q.toInt + d.toInt * d.toInt) / 2 ^ 24 ≤ 128 ∧
    ((q.toInt * q.toInt + d.toInt * d.toInt) / 2 ^ 24 = 128 ↔
      q.toInt * q.toInt + d.toInt * d.toInt = 2 ^ 31) ∧
    -128 ≤ rawIndex c (readInt16 q) (readInt16 d) ∧ rawIndex c (readInt16 q) (readInt16 d) ≤ 128

/-- R64 and R66, TABLE mode under CLAMP, outside the circle: LIMIT completes, and each component is scaled by the
entry at the clamped index and truncated toward zero. -/
def Obligations.LimitTableClampScales : Prop :=
  ∀ (q d : I16) (s : State) (k : BitVec 16), s.cfg.wellFormed = true →
    (s.cfg.maxModule.toNat : Int) * s.cfg.maxModule.toNat < q.toInt * q.toInt + d.toInt * d.toInt →
    s.cfg.limitMode = .table → s.cfg.indexPolicy = .clamp →
    s.cfg.table[(min (max ((q.toInt * q.toInt + d.toInt * d.toInt) / 2 ^ 24 -
      (s.cfg.startIndex.toNat : Int)) 0) 86).toNat]? = some k →
    ∃ o : LimitOut, exec (.limit q d) s = .next { s with out := .limit o } ∧
      o.q_out.toInt = Int.tdiv (q.toInt * (k.toNat : Int)) 32768 ∧
      o.d_out.toInt = Int.tdiv (d.toInt * (k.toNat : Int)) 32768

/-- R65 and R66, TABLE mode under WRAP8, outside the circle, `raw mod 256` an index of the table: LIMIT completes
with the entry there. -/
def Obligations.LimitTableWrapScales : Prop :=
  ∀ (q d : I16) (s : State) (k : BitVec 16), s.cfg.wellFormed = true →
    (s.cfg.maxModule.toNat : Int) * s.cfg.maxModule.toNat < q.toInt * q.toInt + d.toInt * d.toInt →
    s.cfg.limitMode = .table → s.cfg.indexPolicy = .wrap8 →
    s.cfg.table[(((q.toInt * q.toInt + d.toInt * d.toInt) / 2 ^ 24 -
      (s.cfg.startIndex.toNat : Int)) % 256).toNat]? = some k →
    ∃ o : LimitOut, exec (.limit q d) s = .next { s with out := .limit o } ∧
      o.q_out.toInt = Int.tdiv (q.toInt * (k.toNat : Int)) 32768 ∧
      o.d_out.toInt = Int.tdiv (d.toInt * (k.toNat : Int)) 32768

/-- R65, TABLE mode under WRAP8, outside the circle, `raw mod 256` at least 87: the fault, with the raw index; it
writes nothing and drives nothing. -/
def Obligations.LimitTableWrapFaults : Prop :=
  ∀ (q d : I16) (s : State),
    (s.cfg.maxModule.toNat : Int) * s.cfg.maxModule.toNat < q.toInt * q.toInt + d.toInt * d.toInt →
    s.cfg.limitMode = .table → s.cfg.indexPolicy = .wrap8 →
    87 ≤ ((q.toInt * q.toInt + d.toInt * d.toInt) / 2 ^ 24 - (s.cfg.startIndex.toNat : Int)) % 256 →
    exec (.limit q d) s = .fault (.tableIndexOutOfRange
      ((q.toInt * q.toInt + d.toInt * d.toInt) / 2 ^ 24 - (s.cfg.startIndex.toNat : Int)))

/-- R67 and R69, EXACT mode, outside the circle, `abs(d) <= MAX_VD` (equality is within): `d` is held, and `q_out`
is the integer root of what is left, rounded down, with the sign of `q`. -/
def Obligations.LimitExactHoldsDirectAxis : Prop :=
  ∀ (q d : I16) (s : State), s.cfg.wellFormed = true →
    (s.cfg.maxModule.toNat : Int) * s.cfg.maxModule.toNat < q.toInt * q.toInt + d.toInt * d.toInt →
    s.cfg.limitMode = .exact → d.toInt.natAbs ≤ s.cfg.maxVd.toNat →
    ∃ (q_out : I16) (mq : Int), exec (.limit q d) s = .next { s with out := .limit ⟨q_out, d⟩ } ∧
      0 ≤ mq ∧ mq * mq ≤ (s.cfg.maxModule.toNat : Int) * s.cfg.maxModule.toNat - d.toInt * d.toInt ∧
      (s.cfg.maxModule.toNat : Int) * s.cfg.maxModule.toNat - d.toInt * d.toInt < (mq + 1) * (mq + 1) ∧
      q_out.toInt = if q.toInt < 0 then -mq else mq

/-- R68 and R69, EXACT mode, outside the circle, `abs(d) > MAX_VD`: `d_out` is MAX_VD with the sign of `d`, and
`q_out` the integer root of what is left, non-negative when `q` is 0. -/
def Obligations.LimitExactSaturatesDirectAxis : Prop :=
  ∀ (q d : I16) (s : State), s.cfg.wellFormed = true →
    (s.cfg.maxModule.toNat : Int) * s.cfg.maxModule.toNat < q.toInt * q.toInt + d.toInt * d.toInt →
    s.cfg.limitMode = .exact → s.cfg.maxVd.toNat < d.toInt.natAbs →
    ∃ (o : LimitOut) (mq : Int), exec (.limit q d) s = .next { s with out := .limit o } ∧
      o.d_out.toInt = (if d.toInt < 0 then -(s.cfg.maxVd.toNat : Int) else s.cfg.maxVd.toNat) ∧
      0 ≤ mq ∧ mq * mq ≤ (s.cfg.maxModule.toNat : Int) * s.cfg.maxModule.toNat -
        (s.cfg.maxVd.toNat : Int) * s.cfg.maxVd.toNat ∧
      (s.cfg.maxModule.toNat : Int) * s.cfg.maxModule.toNat -
        (s.cfg.maxVd.toNat : Int) * s.cfg.maxVd.toNat < (mq + 1) * (mq + 1) ∧
      o.q_out.toInt = if q.toInt < 0 then -mq else mq

/-- R122: "LIMIT in `CLAMP` policy and in EXACT mode never faults": it completes on every operand. -/
def Obligations.LimitCompletesUnlessWrapped : Prop :=
  ∀ (q d : I16) (s : State), s.cfg.indexPolicy = .clamp ∨ s.cfg.limitMode = .exact →
    ∃ o : LimitOut, exec (.limit q d) s = .next { s with out := .limit o }

/-- R70: a result fits in int16; no component gets the other sign; in TABLE mode none grows. -/
def Obligations.LimitKeepsSignsAndFits : Prop :=
  ∀ (q d : I16) (s : State) (r : Int × Int), s.cfg.wellFormed = true →
    limitResult s.cfg q.toInt d.toInt = .ok r →
    (-32768 ≤ r.1 ∧ r.1 ≤ 32767 ∧ -32768 ≤ r.2 ∧ r.2 ≤ 32767) ∧
    (∃ o : LimitOut, exec (.limit q d) s = .next { s with out := .limit o } ∧
      o.q_out.toInt = r.1 ∧ o.d_out.toInt = r.2) ∧
    0 ≤ r.1 * q.toInt ∧ 0 ≤ r.2 * d.toInt ∧
    (s.cfg.limitMode = .table → r.1.natAbs ≤ q.toInt.natAbs ∧ r.2.natAbs ≤ d.toInt.natAbs)

/-- R71: in EXACT mode every result lies in the circle of radius MAX_MODULE. -/
def Obligations.LimitExactStaysInCircle : Prop :=
  ∀ (q d : I16) (s : State), s.cfg.wellFormed = true → s.cfg.limitMode = .exact →
    ∃ o : LimitOut, exec (.limit q d) s = .next { s with out := .limit o } ∧
      o.q_out.toInt * o.q_out.toInt + o.d_out.toInt * o.d_out.toInt ≤
        (s.cfg.maxModule.toNat : Int) * s.cfg.maxModule.toNat

/-- R72: in TABLE mode every result lies in the circle if the table meets R72's condition, with `Smax(i)` the
largest sum of squares that reaches index `i`. -/
def Obligations.LimitTableStaysInCircle : Prop :=
  ∀ (q d : I16) (s t : State) (o : LimitOut), s.cfg.wellFormed = true → s.cfg.limitMode = .table →
    (∀ (i : Nat) (k : BitVec 16), s.cfg.table[i]? = some k →
      k.toNat ^ 2 * (if i < 86 then min (2 ^ 31) ((s.cfg.startIndex.toNat + i + 1) * 2 ^ 24 - 1) else 2 ^ 31)
        ≤ 2 ^ 30 * s.cfg.maxModule.toNat ^ 2) →
    exec (.limit q d) s = .next t → t.out = .limit o →
    o.q_out.toInt * o.q_out.toInt + o.d_out.toInt * o.d_out.toInt ≤
      (s.cfg.maxModule.toNat : Int) * s.cfg.maxModule.toNat

/-- R64: "Because the table is non-increasing ..., `TABLE[86]` is its smallest entry", and `TABLE[0]` its largest. -/
def Obligations.TableEndsAreExtreme : Prop :=
  ∀ (c : LimiterConfig) (i : Fin 87), c.wellFormed = true →
    tableRead c 86 ≤ tableRead c i ∧ tableRead c i ≤ tableRead c 0 ∧ 0 ≤ tableRead c i ∧
      tableRead c i ≤ 32767

/-- R73: a LIMIT depends on its operands and the configuration only. Two states with one configuration give the
same fault or the same outputs. -/
def Obligations.LimitDependsOnConfigOnly : Prop :=
  ∀ (q d : I16) (s s' : State), s.cfg = s'.cfg →
    (∃ f, exec (.limit q d) s = .fault f ∧ exec (.limit q d) s' = .fault f) ∨
    (∃ o, exec (.limit q d) s = .next { s with out := .limit o } ∧
      exec (.limit q d) s' = .next { s' with out := .limit o })

/-! ## ROTATE (spec/41_rotator.md) -/

/-- R80: an operand that is not finite faults; on finite operands ROTATE completes with the source's formula, every
operation rounded. -/
def Obligations.RotateResult : Prop :=
  ∀ (q d theta : B64) (s : State),
    (isFinite q = false ∨ isFinite d = false ∨ isFinite theta = false →
      exec (.rotate q d theta) s = .fault (.nonFiniteOperand .rotate)) ∧
    (isFinite q = true → isFinite d = true → isFinite theta = true →
      exec (.rotate q d theta) s = .next { s with
        out := .rotate
          { alpha := fadd (fmul q (numerics.cos theta)) (fmul d (numerics.sin theta))
            beta := fadd (fmul (fneg q) (numerics.sin theta)) (fmul d (numerics.cos theta)) } })

/-- R80 with R107 (c): at the angle +0.0 ROTATE gives the numbers it was given. -/
def Obligations.RotateByZeroIsIdentity : Prop :=
  ∀ (q d : B64) (s : State), isFinite q = true → isFinite d = true →
    ∃ o : RotateOut, exec (.rotate q d (toF 0)) s = .next { s with out := .rotate o } ∧
      floatValue o.alpha = floatValue q ∧ floatValue o.beta = floatValue d

/-- R81: a ROTATE depends on its operands only. -/
def Obligations.RotateDependsOnOperandsOnly : Prop :=
  ∀ (q d theta : B64) (s s' : State),
    (∃ f, exec (.rotate q d theta) s = .fault f ∧ exec (.rotate q d theta) s' = .fault f) ∨
    (∃ o, exec (.rotate q d theta) s = .next { s with out := .rotate o } ∧
      exec (.rotate q d theta) s' = .next { s' with out := .rotate o })

/-! ## TICK (spec/42_encoder.md) -/

/-- R85 on operands that pass the checks: TICK completes, and its nine outputs and the new carrier are those of the
rule's pseudocode, line by line. -/
def Obligations.TickResult : Prop :=
  ∀ (p : TickIn) (s : State), tickValid p = true →
    let N := numerics
    let c0 := s.carrier
    let a := fdiv p.alpha (toF 16384)
    let b := fdiv p.beta (toF 16384)
    let ang := if feq a (toF 0) && feq b (toF 0) then toF 0 else N.atan2 b a
    let m := fsqrt (fadd (fmul a a) (fmul b b))
    let deg := fdiv (fmul ang (toF 180)) N.pi64
    let n := sectorOf deg
    let arg := fun j : Nat => fdiv (fmul (toF j) N.pi64) (toF 3)
    let sn := N.sin (arg (sectorCode n).toNat)
    let cn := N.cos (arg (sectorCode n).toNat)
    let sp := N.sin (arg ((sectorCode n).toNat - 1))
    let cp := N.cos (arg ((sectorCode n).toNat - 1))
    let ca := N.cos ang
    let sa := N.sin ang
    let km := fmul N.k2Sqrt3 m
    let d1 := fmul km (fsub (fmul ca sn) (fmul sa cn))
    let d2 := fmul km (fsub (fmul sa cp) (fmul ca sp))
    let d3 := fsub (fsub (toF 1) (fabs d1)) (fabs d2)
    let T1 := fmul d1 p.carrierPeriod
    let T2 := fmul d2 p.carrierPeriod
    let Tz := fmul d3 p.carrierPeriod
    let td := fdiv Tz (toF 2)
    let ta := fadd (fadd T1 T2) td
    let tb := fadd T1 td
    let tc := fadd T2 td
    let t := thresholds n ⟨ta, tb, tc, td⟩
    let L := fun x : B64 => if fgt x c0 then p.busVoltage else toF 0
    exec (.tick p) s = .next { s with
      carrier := fadd c0 (fmul p.dt (fsub p.secondaryInput 0x3FE0000000000000#64))
      out := .tick ⟨L t.1, L t.2.1, L t.2.2, ang, sectorCode n, c0, T1, T2, Tz⟩ }

/-- R86: the operand checks in their order, each with its reason. -/
def Obligations.TickChecksInOrder : Prop :=
  ∀ (p : TickIn) (s : State),
    (tickFinite p = false → exec (.tick p) s = .fault (.nonFiniteOperand .tick)) ∧
    (tickFinite p = true → fle p.carrierPeriod (toF 0) = true →
      exec (.tick p) s = .fault (.invalidTickOperand .carrierPeriod)) ∧
    (tickFinite p = true → fle p.carrierPeriod (toF 0) = false → flt p.busVoltage (toF 0) = true →
      exec (.tick p) s = .fault (.invalidTickOperand .busVoltage))

/-- R91: `Sector(deg)` is the sector whose wedge holds, and sector 1 if none does; the wedges exclude each other,
and each `deg` in (-180, 180] is in one of them; a zero of either sign is in sector 1. -/
def Obligations.SectorWedges : Prop :=
  ∀ deg : B64,
    (∀ n, wedge deg n = true → sectorOf deg = n) ∧
    ((∀ n, wedge deg n = false) → sectorOf deg = .s1) ∧
    (∀ n n', wedge deg n = true → wedge deg n' = true → n = n') ∧
    (flt (toF (-180)) deg = true → fle deg (toF 180) = true → ∃ n, wedge deg n = true) ∧
    (isZero deg = true → sectorOf deg = .s1)

/-- R92: a `deg` in no wedge gives sector 1; such a `deg`, if no NaN, is -180.0 or lies outside [-180, 180]; and
-180.0 is one. -/
def Obligations.SectorFallback : Prop :=
  (∀ deg : B64, (∀ n, wedge deg n = false) →
    sectorOf deg = .s1 ∧
    (isNaN deg = false → deg = toF (-180) ∨ flt deg (toF (-180)) = true ∨ flt (toF 180) deg = true)) ∧
  ∀ n, wedge (toF (-180)) n = false

/-- R92: the degrees TICK classifies are never a NaN. -/
def Obligations.DegreesAreNoNaN : Prop :=
  ∀ p : TickIn, tickValid p = true →
    isNaN (degreesOf numerics (angleOf numerics (descale p.alpha) (descale p.beta))) = false

/-- R90 and R93 at the default PI64, for any numerics that have it, the machine's too where it is the value given:
`deg` of ±PI64 is ±180.0 exactly, and the seven sector angles are those written there, bit for bit. -/
def Obligations.DegreesAndSectorAngles : Prop :=
  ∀ N : Numerics, N.pi64 = Config.pi64Default →
    degreesOf N N.pi64 = toF 180 ∧ degreesOf N (fneg N.pi64) = toF (-180) ∧
    (List.range 7).map (sectorAngle N) =
      [0x0000000000000000#64, 0x3FF0C152382D7365#64, 0x4000C152382D7365#64, 0x400921FB54442D18#64,
        0x4010C152382D7365#64, 0x4014F1A6C638D03F#64, 0x401921FB54442D18#64]

/-- R99: the threshold map. -/
def Obligations.ThresholdMap : Prop :=
  ∀ g : GateTimes,
    thresholds .s1 g = (g.ta, g.tc, g.td) ∧ thresholds .s2 g = (g.tb, g.ta, g.td) ∧
    thresholds .s3 g = (g.td, g.ta, g.tc) ∧ thresholds .s4 g = (g.td, g.tb, g.ta) ∧
    thresholds .s5 g = (g.tc, g.td, g.ta) ∧ thresholds .s6 g = (g.ta, g.td, g.tb)

/-- R106: each phase output is exactly +0.0 or exactly `busVoltage`. -/
def Obligations.PhaseOutputsAreLevels : Prop :=
  ∀ (p : TickIn) (s : State), tickValid p = true →
    ∃ (t : State) (o : TickOut), exec (.tick p) s = .next t ∧ t.out = .tick o ∧
      (o.U = toF 0 ∨ o.U = p.busVoltage) ∧ (o.V = toF 0 ∨ o.V = p.busVoltage) ∧
      (o.W = toF 0 ∨ o.W = p.busVoltage)

/-- R100: `busVoltage` if the threshold is above the carrier, else +0.0. So the comparison is strict, "a threshold
equal to the carrier gives +0.0", and a NaN threshold is low, whatever the carrier. -/
def Obligations.ComparatorIsStrict : Prop :=
  ∀ busVoltage c0 x : B64,
    (fgt x c0 = true → comparator busVoltage c0 x = busVoltage) ∧
    (fgt x c0 = false → comparator busVoltage c0 x = toF 0) ∧
    (feq x c0 = true → comparator busVoltage c0 x = toF 0) ∧
    (flt x c0 = true → comparator busVoltage c0 x = toF 0) ∧
    (isNaN x = true → comparator busVoltage c0 x = toF 0)

/-- The zero-vector scenario (spec/95_test_vectors.md L1-1; R85, R88, R89): a vector of two zeros, of any signs,
gives the angle +0.0, sector 1, zero active times and `Tz` the whole period, and all three outputs compare the
half period with the carrier, whatever the numerics within R107. -/
def Obligations.ZeroVectorTick : Prop :=
  ∀ (p : TickIn) (s : State), tickValid p = true → isZero p.alpha = true → isZero p.beta = true →
    ∃ (t : State) (o : TickOut), exec (.tick p) s = .next t ∧ t.out = .tick o ∧
      o.angle = toF 0 ∧ o.sector = 1 ∧ isZero o.T1 = true ∧ isZero o.T2 = true ∧ o.Tz = p.carrierPeriod ∧
      o.U = comparator p.busVoltage s.carrier (fdiv p.carrierPeriod (toF 2)) ∧ o.V = o.U ∧ o.W = o.U

/-- R85: TICK "Reads no configuration field": two states with one carrier give the same fault, or the same outputs
and the same new carrier. -/
def Obligations.TickDependsOnCarrierOnly : Prop :=
  ∀ (p : TickIn) (s s' : State), s.carrier = s'.carrier →
    (∃ f, exec (.tick p) s = .fault f ∧ exec (.tick p) s' = .fault f) ∨
    (∃ o c, exec (.tick p) s = .next { s with carrier := c, out := .tick o } ∧
      exec (.tick p) s' = .next { s' with carrier := c, out := .tick o })

/-- R102, R103, R145: over a list of TICKs the carrier advances once for each, each from the value the one before
left, and the machine is ready for more. -/
def Obligations.CarrierAdvancesOncePerTick : Prop :=
  ∀ (ps : List TickIn) (s : State) (rest : List HostAction),
    s.ready = true → s.host = ps.map (fun p => HostAction.command (encode (.tick p))) ++ rest →
    (∀ p ∈ ps, tickValid p = true) →
    (advanceN ps.length s).carrier =
      ps.foldl (fun c p => fadd c (fmul p.dt (fsub p.secondaryInput 0x3FE0000000000000#64))) s.carrier ∧
    (advanceN ps.length s).cfg = s.cfg ∧ (advanceN ps.length s).host = rest ∧
    (advanceN ps.length s).ready = true

/-! ## Frames and whole-machine rules -/

/-- The frame of LIMIT and ROTATE (R73, R81): whatever they leave as the next state differs in the output ports
only. -/
def Obligations.LimitAndRotateFrame : Prop :=
  ∀ (i : Instr) (s t : State), i.command = .limit ∨ i.command = .rotate → exec i s = .next t →
    sameButPorts s t

/-- The frame of TICK (R85): the output ports and the carrier, and nothing else. -/
def Obligations.TickFrame : Prop :=
  ∀ (p : TickIn) (s t : State), exec (.tick p) s = .next t → sameButPortsAndCarrier s t

/-- R44: "Every command other than TICK is idempotent". -/
def Obligations.OtherCommandsIdempotent : Prop :=
  ∀ (i : Instr) (s t : State), i.command ≠ .tick → exec i s = .next t → exec i t = .next t

/-- R29: "No command writes a configuration field"; it is reloaded only by a new construction. -/
def Obligations.ConfigurationReadOnly : Prop :=
  ∀ s t : State, step s = .next t → t.cfg ≠ s.cfg → ∃ fs rest, s.host = .construct fs :: rest

/-- R30: "only TICK writes" the carrier, besides reset and construction, which ends with a reset. -/
def Obligations.OnlyTickMovesCarrier : Prop :=
  ∀ s t : State, step s = .next t → t.carrier ≠ s.carrier →
    (∃ c rest p, s.host = .command c :: rest ∧ decode c = .ok (.tick p)) ∨
    (∃ rest, s.host = .reset :: rest) ∨ (∃ fs rest, s.host = .construct fs :: rest)

/-- R121: a fault or a refusal of a command writes nothing and drives no output, and its reason is recorded (where
it is recorded is log entry 1). -/
def Obligations.StopsWriteNothing : Prop :=
  ∀ (s : State) (c : Presented) (rest : List HostAction), s.ready = true → s.host = .command c :: rest →
    (∀ r, step s = .fault r →
      advance s = { s with host := rest, mark := some (.fault r), out := .undriven }) ∧
    (∀ r, step s = .refused r →
      advance s = { s with host := rest, mark := some (.refused r), out := .undriven })

/-- R124: once a fault or a refusal is recorded, no command has a step, and nothing moves but the host's list (that
"no step" repeats the recorded reason is log entry 2). -/
def Obligations.RecordedStopIsFinal : Prop :=
  ∀ (s : State) (c : Presented) (rest : List HostAction) (r : Stop),
    s.mark = some r → s.host = .command c :: rest →
    (∀ t, step s ≠ .next t) ∧ step s = stopOutcome r ∧
    (advance s).mark = some r ∧ (advance s).carrier = s.carrier ∧ (advance s).cfg = s.cfg

/-- R124: "Only two host actions clear the record: reset ... and a new construction". -/
def Obligations.OnlyResetOrConstructionClears : Prop :=
  ∀ (s : State) (r : Stop), s.mark = some r → (advance s).mark = none →
    (∃ rest, s.host = .reset :: rest) ∨ (∃ fs rest, s.host = .construct fs :: rest)

/-- R56: PIPE is LIMIT, ROTATE and TICK in order, each on the results of the one before, and a fault ends it. -/
def Obligations.PipeIsThreeCommands : Prop :=
  ∀ (p : PipeIn) (s : State), s.ready = true →
    (∀ f, exec (.limit p.q p.d) s = .fault f → pipe p s = .fault f) ∧
    (∀ s1 o1, exec (.limit p.q p.d) s = .next s1 → s1.out = .limit o1 →
      (∀ f, exec (.rotate (toF o1.q_out.toInt) (toF o1.d_out.toInt) p.theta) s1 = .fault f →
        pipe p s = .fault f) ∧
      (∀ s2 o2, exec (.rotate (toF o1.q_out.toInt) (toF o1.d_out.toInt) p.theta) s1 = .next s2 →
        s2.out = .rotate o2 →
        pipe p s = exec (.tick ⟨o2.alpha, o2.beta, p.busVoltage, p.carrierPeriod, p.secondaryInput, p.dt⟩) s2))

/-! ## Reset and construction -/

/-- R35: the state after reset: `carrier` +0.0 and the mark clear. That the configuration is a legal one and the
phase is the run phase follow from R28 and R142; that nothing is driven and nothing issued are log entries 8
and 3. -/
def Obligations.StateAfterReset : Prop :=
  core.reset.carrier = 0#64 ∧ core.reset.mark = none ∧ core.reset.cfg.wellFormed = true ∧
  core.reset.phase = .run ∧ core.reset.out = .undriven ∧ core.reset.host = []

/-- R140: the reset action, in whatever state the run is, faulted or not. -/
def Obligations.ResetStartsNewRun : Prop :=
  ∀ (s : State) (rest : List HostAction), s.phase = .run → s.host = .reset :: rest →
    ∃ t, step s = .next t ∧ t.carrier = toF 0 ∧ t.mark = none ∧ t.cfg = s.cfg ∧ t.phase = .run ∧
      t.host = rest

/-- R28 and R142: a construction is accepted if every row of R28's table holds of the fields given (written out in
`CheckHolds`; log entry 10 for a field not given once), or every check of the loader passes. It loads each register
with the value given for it, resets, and the block is ready. -/
def Obligations.ConstructionLoadsRegisters : Prop :=
  ∀ (s : State) (fs : List (Nat × Int)) (rest : List HostAction), s.host = .construct fs :: rest →
    (∀ c, CheckHolds fs c) ∨ (∀ c, passes fs c = true) →
    (∀ n v, (n, v) ∈ fs → loaded fs n = v) ∧
    ∃ t, step s = .next t ∧ t.ready = true ∧ t.carrier = toF 0 ∧ t.host = rest ∧
      (t.cfg.maxModule.toNat : Int) = loaded fs 0x00 ∧ (t.cfg.maxVd.toNat : Int) = loaded fs 0x01 ∧
      (t.cfg.startIndex.toNat : Int) = loaded fs 0x02 ∧
      codeOfMode t.cfg.limitMode = loaded fs 0x03 ∧ codeOfPolicy t.cfg.indexPolicy = loaded fs 0x04 ∧
      ∀ i : Fin 87, tableRead t.cfg i = loaded fs (0x40 + i.val)

/-- R28 and R123: if a row of R28's table does not hold of the fields given, or a check of the loader fails, the
construction is refused with a check that fails in both senses. (Which one it names when several fail is log entry
9; a field not given once and an 88th table entry are log entry 10.) -/
def Obligations.ConstructionRefusesIllFormed : Prop :=
  ∀ (s : State) (fs : List (Nat × Int)) (rest : List HostAction) (c : ConfigCheck),
    s.host = .construct fs :: rest → ¬CheckHolds fs c ∨ passes fs c = false →
    ∃ c', ¬CheckHolds fs c' ∧ passes fs c' = false ∧ step s = .refused (.illFormedConfig c')

/-- R123, R124, R142: after a refused construction the block has no run: neither a command nor a reset has a step,
and the configuration and the carrier are as they were (log entries 11 and 13). -/
def Obligations.RefusedConstructionHasNoRun : Prop :=
  ∀ (s : State) (fs : List (Nat × Int)) (rest : List HostAction) (c : ConfigCheck) (a : HostAction),
    s.host = .construct fs :: rest → step s = .refused (.illFormedConfig c) →
    (advance s).phase = .construction ∧ (advance s).cfg = s.cfg ∧ (advance s).carrier = s.carrier ∧
    ((∀ gs, a ≠ .construct gs) → ∀ t, step { advance s with host := a :: rest } ≠ .next t)

/-! ## The invariant -/

/-- The invariant holds after reset. -/
def Obligations.InvariantAtReset : Prop := core.reset.Inv = true

/-- Every step keeps the invariant: in the run phase the configuration is one that R28 accepts; the `sector` port
carries 1 to 6 (R54); the phase outputs are levels; in EXACT mode a LIMIT result on the ports lies in the circle
(R71); a block that was never constructed drives nothing. -/
def Obligations.InvariantKeptByStep : Prop :=
  ∀ s t : State, s.Inv = true → core.step s = .next t → t.Inv = true

/-- The same along a run with its recorded stops, however long. -/
def Obligations.InvariantKeptByRun : Prop :=
  ∀ (n : Nat) (s : State), s.Inv = true → (advanceN n s).Inv = true

/-! ## Arithmetic (spec/00_scope.md R9) -/

/-- `fl(x + y)` and `fl(x - y)`. On finite operands they are the exact results rounded to nearest, ties to even. An
exact zero is +0.0 unless both terms are negative zeros, and an infinite operand is kept (IEEE 754, log entry 15). -/
def Obligations.AdditionRoundsCorrectly : Prop :=
  (∀ x y : B64, isFinite x = true → isFinite y = true →
    CorrectlyRounded ((floatValue x : ℝ) + floatValue y) (fadd x y) ∧
    CorrectlyRounded ((floatValue x : ℝ) - floatValue y) (fsub x y) ∧
    (floatValue x + floatValue y = 0 →
      fadd x y = if x = zero true ∧ y = zero true then zero true else zero false) ∧
    (floatValue x - floatValue y = 0 →
      fsub x y = if x = zero true ∧ y = zero false then zero true else zero false)) ∧
  (∀ (a : Bool) (y : B64), isFinite y = true →
    fadd (infinity a) y = infinity a ∧ fadd y (infinity a) = infinity a ∧
    fsub (infinity a) y = infinity a ∧ fsub y (infinity a) = infinity (!a)) ∧
  ∀ a : Bool, fadd (infinity a) (infinity a) = infinity a ∧ fsub (infinity a) (infinity !a) = infinity a

/-- `fl(x * y)`: on finite operands the exact product rounded, with the exclusive-or of the operands' signs, a zero's
too; infinity times a value that is no zero and no NaN is the infinity of that sign (IEEE 754, log entry 15). -/
def Obligations.MultiplicationRoundsCorrectly : Prop :=
  (∀ x y : B64, isFinite x = true → isFinite y = true →
    CorrectlyRounded ((floatValue x : ℝ) * floatValue y) (fmul x y) ∧
    signBit (fmul x y) = (signBit x ^^ signBit y) ∧
    (isZero x = true ∨ isZero y = true → fmul x y = zero (signBit x ^^ signBit y))) ∧
  ∀ (a : Bool) (y : B64), isNaN y = false → isZero y = false →
    fmul (infinity a) y = infinity (a ^^ signBit y) ∧ fmul y (infinity a) = infinity (signBit y ^^ a)

/-- `fl(x / y)`: on finite operands with a divisor that is not zero the exact quotient rounded, with the exclusive-or
of the operands' signs, a zero's too; infinity over a finite value is the infinity of that sign, a finite value over
infinity the zero, and a value that is not zero over zero the infinity (IEEE 754, log entry 15). -/
def Obligations.DivisionRoundsCorrectly : Prop :=
  (∀ x y : B64, isFinite x = true → isFinite y = true → isZero y = false →
    CorrectlyRounded ((floatValue x : ℝ) / floatValue y) (fdiv x y) ∧
    signBit (fdiv x y) = (signBit x ^^ signBit y) ∧
    (isZero x = true → fdiv x y = zero (signBit x ^^ signBit y))) ∧
  (∀ (a : Bool) (y : B64), isFinite y = true →
    fdiv (infinity a) y = infinity (a ^^ signBit y) ∧ fdiv y (infinity a) = zero (signBit y ^^ a)) ∧
  ∀ x y : B64, isFinite x = true → isZero x = false → isZero y = true →
    fdiv x y = infinity (signBit x ^^ signBit y)

/-- "`fsqrt(x)` is the IEEE 754 correctly rounded square root", on finite values that are not below zero; the root of
a zero is that zero, and of +infinity is +infinity (IEEE 754, log entry 15). -/
def Obligations.SquareRootRoundsCorrectly : Prop :=
  (∀ x : B64, isFinite x = true → 0 ≤ floatValue x →
    CorrectlyRounded (Real.sqrt (floatValue x : ℝ)) (fsqrt x)) ∧
  (∀ x : B64, isZero x = true → fsqrt x = x) ∧
  fsqrt (infinity false) = infinity false

/-- The comparisons compare the values, a comparison with a NaN is false, both zeros are equal, and every finite
value lies strictly between the infinities, each of which equals itself alone. -/
def Obligations.ComparisonsCompareValues : Prop :=
  (∀ x y : B64,
    (isNaN x = true ∨ isNaN y = true → flt x y = false ∧ fle x y = false ∧ feq x y = false) ∧
    (isFinite x = true → isFinite y = true →
      (flt x y = true ↔ floatValue x < floatValue y) ∧ (fle x y = true ↔ floatValue x ≤ floatValue y) ∧
      (feq x y = true ↔ floatValue x = floatValue y)) ∧
    (isZero x = true → isZero y = true → feq x y = true)) ∧
  (∀ (a : Bool) (x : B64), isFinite x = true →
    flt x (infinity a) = !a ∧ fle x (infinity a) = !a ∧ feq x (infinity a) = false ∧
    flt (infinity a) x = a ∧ fle (infinity a) x = a ∧ feq (infinity a) x = false) ∧
  ∀ a b : Bool,
    flt (infinity a) (infinity b) = (a && !b) ∧ fle (infinity a) (infinity b) = (a || !b) ∧
    feq (infinity a) (infinity b) = (a == b)

/-- "`toF(i)` converts an integer of at most 53 bits to binary64 exactly". -/
def Obligations.IntegersConvertExactly : Prop :=
  ∀ i : Int, i.natAbs ≤ 2 ^ 53 → isFinite (toF i) = true ∧ floatValue (toF i) = (i : ℚ)

/-- "`fabs(x)` clears the sign bit", and `-x` flips it (spec/41_rotator.md R80); no other bit changes. -/
def Obligations.SignOperationsTouchOneBit : Prop :=
  ∀ x : B64,
    (signBit (fabs x) = false ∧ expField (fabs x) = expField x ∧ fracField (fabs x) = fracField x) ∧
    (signBit (fneg x) = !signBit x ∧ expField (fneg x) = expField x ∧ fracField (fneg x) = fracField x)

/-- IEEE 754's invalid operations deliver a NaN, and so does an operation on a NaN; which NaN is free (log entries 6
and 15). -/
def Obligations.InvalidOperationsGiveNaN : Prop :=
  (∀ x y : B64, isNaN x = true ∨ isNaN y = true →
    isNaN (fadd x y) = true ∧ isNaN (fsub x y) = true ∧ isNaN (fmul x y) = true ∧ isNaN (fdiv x y) = true) ∧
  (∀ x : B64, isNaN x = true → isNaN (fsqrt x) = true) ∧
  (∀ a : Bool, isNaN (fadd (infinity a) (infinity !a)) = true ∧ isNaN (fsub (infinity a) (infinity a)) = true) ∧
  (∀ (a : Bool) (y : B64), isZero y = true →
    isNaN (fmul (infinity a) y) = true ∧ isNaN (fmul y (infinity a)) = true) ∧
  (∀ x y : B64, isZero x = true → isZero y = true → isNaN (fdiv x y) = true) ∧
  (∀ a b : Bool, isNaN (fdiv (infinity a) (infinity b)) = true) ∧
  (∀ x : B64, isFinite x = true → floatValue x < 0 → isNaN (fsqrt x) = true) ∧
  isNaN (fsqrt (infinity true)) = true

/-- R107 (a) to (d) and the ranges of spec/00_scope.md R6 hold of the machine's numerics, whatever the free
functions (log entry 5) and the values given for PI64 and K_2_SQRT3 (log entry 7) are. -/
def Obligations.NumericsWithinTheirProperties : Prop := numerics.Legal
end

