-- ==== Sys2Proof/Laws/Arith.lean ====
section
/-! SUPPORT. The integer operations meet spec/00_scope.md R8. -/

namespace Sys2Proof.Machine

theorem isqrtBits_spec (n b r : Nat) (hr : r * r ≤ n) (hn : n < (r + 2 ^ b) * (r + 2 ^ b)) :
    isqrtBits n b r * isqrtBits n b r ≤ n ∧ n < (isqrtBits n b r + 1) * (isqrtBits n b r + 1) := by
  induction b generalizing r with
  | zero => exact ⟨hr, by simpa [isqrtBits] using hn⟩
  | succ b ih =>
    simp only [isqrtBits]
    by_cases h : (r + 2 ^ b) * (r + 2 ^ b) ≤ n
    · rw [if_pos h]
      refine ih _ h ?_
      have : r + 2 ^ b + 2 ^ b = r + 2 ^ (b + 1) := by rw [pow_succ]; omega
      rwa [this]
    · rw [if_neg h]
      exact ih _ hr (by omega)

/-- `isqrt(n)` is the largest `r` with `r*r <= n`: its square fits, and its successor's does not. -/
theorem isqrt_spec (n : Nat) : isqrt n * isqrt n ≤ n ∧ n < (isqrt n + 1) * (isqrt n + 1) := by
  refine isqrtBits_spec n _ 0 (by simp) ?_
  have h1 : n < 2 ^ (Nat.log2 n + 1) := Nat.lt_log2_self
  have h2 : (2 : Nat) ^ (Nat.log2 n + 1) ≤ 2 ^ ((Nat.log2 n / 2 + 1) + (Nat.log2 n / 2 + 1)) :=
    Nat.pow_le_pow_right (by norm_num) (by omega)
  rw [pow_add 2 (Nat.log2 n / 2 + 1)] at h2
  rw [Nat.zero_add]
  exact lt_of_lt_of_le h1 h2

/-- What `r*r <= n < (r+1)*(r+1)` leaves: `isqrt` is the only such number. -/
theorem isqrt_unique {n r : Nat} (h1 : r * r ≤ n) (h2 : n < (r + 1) * (r + 1)) : isqrt n = r := by
  obtain ⟨a, b⟩ := isqrt_spec n
  have h3 : isqrt n < r + 1 := by by_contra h; nlinarith
  have h4 : r < isqrt n + 1 := by by_contra h; nlinarith
  omega

theorem isqrt_mono {a b : Nat} (h : a ≤ b) : isqrt a ≤ isqrt b := by
  obtain ⟨ha, -⟩ := isqrt_spec a
  obtain ⟨-, hb⟩ := isqrt_spec b
  by_contra hc
  nlinarith

/-- `tdiv(a, b)` for a positive divisor is the exact quotient cut toward zero. -/
theorem tdiv_natAbs (a : Int) (b : Nat) : (tdiv a b).natAbs = a.natAbs / b := by
  unfold tdiv
  rw [Int.natAbs_tdiv]
  rfl

/-- Truncation never gives the quotient the other sign. -/
theorem tdiv_mul_self_nonneg (a : Int) (b : Nat) : 0 ≤ tdiv a b * a := by
  unfold tdiv
  rcases le_total 0 a with h | h
  · exact mul_nonneg (Int.tdiv_nonneg h (by omega)) h
  · refine mul_nonneg_of_nonpos_of_nonpos ?_ h
    rw [← neg_neg a, Int.neg_tdiv]
    exact neg_nonpos.mpr (Int.tdiv_nonneg (by omega) (by omega))

theorem modNat_lt (a : Int) {m : Nat} (h : 0 < m) : modNat a m < m := by
  have := Int.emod_lt_of_pos a (b := (m : Int)) (by omega)
  have := Int.emod_nonneg a (b := (m : Int)) (by omega)
  unfold modNat; omega

end Sys2Proof.Machine
end

