-- ==== Sys2Proof/Laws/State.lean ====
section
/-! SUPPORT. One lemma per field per update, so that no proof unfolds a record update. -/

namespace Sys2Proof.Machine

section
variable (o : OutputPorts) (v : B64) (r : Stop) (s : State)

@[simp] theorem drive_phase : (drive o s).phase = s.phase := rfl
@[simp] theorem drive_cfg : (drive o s).cfg = s.cfg := rfl
@[simp] theorem drive_carrier : (drive o s).carrier = s.carrier := rfl
@[simp] theorem drive_mark : (drive o s).mark = s.mark := rfl
@[simp] theorem drive_out : (drive o s).out = o := rfl
@[simp] theorem drive_host : (drive o s).host = s.host := rfl
@[simp] theorem drive_drive (o' : OutputPorts) : drive o (drive o' s) = drive o s := rfl

@[simp] theorem writeCarrier_phase : (writeCarrier v s).phase = s.phase := rfl
@[simp] theorem writeCarrier_cfg : (writeCarrier v s).cfg = s.cfg := rfl
@[simp] theorem writeCarrier_carrier : (writeCarrier v s).carrier = v := rfl
@[simp] theorem writeCarrier_mark : (writeCarrier v s).mark = s.mark := rfl
@[simp] theorem writeCarrier_out : (writeCarrier v s).out = s.out := rfl
@[simp] theorem writeCarrier_host : (writeCarrier v s).host = s.host := rfl

@[simp] theorem readCarrier_eq : readCarrier s = s.carrier := rfl

@[simp] theorem resetBlock_phase : (resetBlock s).phase = s.phase := rfl
@[simp] theorem resetBlock_cfg : (resetBlock s).cfg = s.cfg := rfl
@[simp] theorem resetBlock_carrier : (resetBlock s).carrier = zero false := rfl
@[simp] theorem resetBlock_mark : (resetBlock s).mark = none := rfl
@[simp] theorem resetBlock_out : (resetBlock s).out = .undriven := rfl
@[simp] theorem resetBlock_host : (resetBlock s).host = s.host := rfl

@[simp] theorem recordStop_phase : (recordStop r s).phase = s.phase := rfl
@[simp] theorem recordStop_cfg : (recordStop r s).cfg = s.cfg := rfl
@[simp] theorem recordStop_carrier : (recordStop r s).carrier = s.carrier := rfl
@[simp] theorem recordStop_mark : (recordStop r s).mark = some r := rfl
@[simp] theorem recordStop_out : (recordStop r s).out = .undriven := rfl
@[simp] theorem recordStop_host : (recordStop r s).host = s.host.tail := rfl

end

@[simp] theorem reset_phase : State.reset.phase = .run := rfl
@[simp] theorem reset_carrier : State.reset.carrier = zero false := rfl
@[simp] theorem reset_mark : State.reset.mark = none := rfl
@[simp] theorem reset_out : State.reset.out = .undriven := rfl
@[simp] theorem reset_host : State.reset.host = [] := rfl

/-- The free configuration of the reset state is a legal one. -/
theorem legalOr_wellFormed (c : LimiterConfig) : (LimiterConfig.legalOr c).wellFormed = true := by
  unfold LimiterConfig.legalOr
  split
  · assumption
  · decide +kernel

/-- Every legal configuration can be the reset state's: `legalOr` changes none of them. -/
theorem legalOr_of_wellFormed {c : LimiterConfig} (h : c.wellFormed = true) :
    LimiterConfig.legalOr c = c := if_pos h

end Sys2Proof.Machine
end

