-- ==== Sys2Proof/Laws/Step.lean ====
section
/-! SUPPORT. What each command, each host action and each step can do, said once. Later proofs cite these instead of
unfolding. -/

namespace Sys2Proof.Machine

/-! ## The commands -/

theorem execLimit_eq (q d : I16) (s : State) :
    execLimit q d s = match limitResult s.cfg (readInt16 q) (readInt16 d) with
      | .ok r => .next (drive (.limit ⟨int16Port r.1, int16Port r.2⟩) s)
      | .error f => .fault f := rfl

theorem exec_limit (q d : I16) (s : State) : exec (.limit q d) s = execLimit q d s := rfl

theorem exec_rotate (q d theta : B64) (s : State) : exec (.rotate q d theta) s = execRotate q d theta s := rfl

theorem exec_tick (p : TickIn) (s : State) : exec (.tick p) s = execTick p s := rfl

/-- LIMIT that completes has driven its two ports with its integer result. -/
theorem execLimit_next {q d : I16} {s t : State} (h : execLimit q d s = .next t) :
    ∃ r, limitResult s.cfg (readInt16 q) (readInt16 d) = .ok r ∧
      t = drive (.limit ⟨int16Port r.1, int16Port r.2⟩) s := by
  rw [execLimit_eq] at h
  split at h
  · exact ⟨_, ‹_›, by simpa using h.symm⟩
  · simp at h

theorem rotateCheck_none {q d theta : B64} :
    rotateCheck q d theta = none ↔ isFinite q = true ∧ isFinite d = true ∧ isFinite theta = true := by
  unfold rotateCheck
  split <;> simp_all

/-- ROTATE that completes had finite operands and has driven its two ports. -/
theorem execRotate_next {q d theta : B64} {s t : State} (h : execRotate q d theta s = .next t) :
    rotateCheck q d theta = none ∧ t = drive (.rotate (rotateOutputs numerics q d theta)) s := by
  unfold execRotate raiseFault at h
  split at h
  · simp at h
  · exact ⟨‹_›, by simpa using h.symm⟩

theorem tickCheck_none {p : TickIn} : tickCheck p = none ↔ tickValid p = true := by
  unfold tickCheck tickValid
  cases tickFinite p <;> cases fle p.carrierPeriod (zero false) <;> cases flt p.busVoltage (zero false) <;> simp

/-- A TICK on valid operands. -/
theorem execTick_valid {p : TickIn} (h : tickValid p = true) (s : State) :
    execTick p s = .next (writeCarrier (carrierNext s.carrier p.secondaryInput p.dt)
      (drive (.tick (tickOutputs numerics p s.carrier)) s)) := by
  unfold execTick tickWith
  rw [tickCheck_none.mpr h]
  rfl

/-- TICK that completes had valid operands. -/
theorem execTick_next {p : TickIn} {s t : State} (h : execTick p s = .next t) :
    tickValid p = true ∧ t = writeCarrier (carrierNext s.carrier p.secondaryInput p.dt)
      (drive (.tick (tickOutputs numerics p s.carrier)) s) := by
  by_cases hv : tickValid p = true
  · rw [execTick_valid hv] at h; exact ⟨hv, by simpa using h.symm⟩
  · unfold execTick tickWith raiseFault at h
    split at h
    · simp at h
    · exact absurd (tickCheck_none.mp ‹_›) hv

/-- What any command can do when it completes. -/
theorem exec_next {i : Instr} {s t : State} (h : exec i s = .next t) :
    (∃ q d r, i = .limit q d ∧ limitResult s.cfg (readInt16 q) (readInt16 d) = .ok r ∧
      t = drive (.limit ⟨int16Port r.1, int16Port r.2⟩) s) ∨
    (∃ q d theta, i = .rotate q d theta ∧ rotateCheck q d theta = none ∧
      t = drive (.rotate (rotateOutputs numerics q d theta)) s) ∨
    (∃ p, i = .tick p ∧ tickValid p = true ∧
      t = writeCarrier (carrierNext s.carrier p.secondaryInput p.dt)
        (drive (.tick (tickOutputs numerics p s.carrier)) s)) := by
  cases i with
  | limit q d =>
    obtain ⟨r, hr, ht⟩ := execLimit_next h
    exact .inl ⟨q, d, r, rfl, hr, ht⟩
  | rotate q d theta => exact .inr (.inl ⟨q, d, theta, rfl, execRotate_next h⟩)
  | tick p => exact .inr (.inr ⟨p, rfl, execTick_next h⟩)

/-- No command is refused: a refusal is of a word, or of a configuration. -/
theorem exec_not_refused (i : Instr) (s : State) (r : Refusal) : exec i s ≠ .refused r := by
  intro h
  cases i with
  | limit q d => rw [exec_limit, execLimit_eq] at h; split at h <;> simp at h
  | rotate q d theta => rw [exec_rotate] at h; unfold execRotate raiseFault at h; split at h <;> simp at h
  | tick p => rw [exec_tick] at h; unfold execTick tickWith raiseFault at h; split at h <;> simp at h

/-! ## Host actions -/

theorem barred_eq_none {s : State} : barred s = none ↔ s.ready = true := by
  unfold barred State.ready State.unmarked
  cases s.mark <;> cases s.phase <;> simp

theorem stopOutcome_ne_next (r : Stop) (t : State) : stopOutcome r ≠ .next t := by
  cases r <;> simp [stopOutcome]

theorem issueCommand_ready {c : Presented} {s : State} (h : s.ready = true) :
    issueCommand c s = match decode c with
      | .ok i => exec i s
      | .error (.reservedCommand w) => .refused (.reservedCommand w) := by
  have hb := barred_eq_none.mpr h
  cases hd : decode c <;> simp only [issueCommand, hb, hd]

/-- A command that completes was taken by a ready block, and is what its word and ports decode to. -/
theorem issueCommand_next {c : Presented} {s t : State} (h : issueCommand c s = .next t) :
    s.ready = true ∧ ∃ i, decode c = .ok i ∧ exec i s = .next t := by
  by_cases hr : s.ready = true
  · rw [issueCommand_ready hr] at h
    split at h
    · exact ⟨hr, _, ‹_›, h⟩
    · simp at h
  · unfold issueCommand at h
    split at h
    · exact absurd h (stopOutcome_ne_next _ _)
    · exact absurd (barred_eq_none.mp ‹_›) hr

theorem issueReset_next {s t : State} (h : issueReset s = .next t) : s.phase = .run ∧ t = resetBlock s := by
  unfold issueReset at h
  split at h
  · exact ⟨‹_›, by simpa using h.symm⟩
  · simp at h

theorem construct_next {fs : List (Nat × Int)} {s t : State} (h : construct fs s = .next t) :
    failingCheck fs = none ∧ t = resetBlock { s with phase := .run, cfg := configOf fs } := by
  unfold construct at h
  split at h
  · simp at h
  · exact ⟨‹_›, by simpa using h.symm⟩

/-! ## A step -/

/-- What a step can do when it answers a next state. -/
theorem step_next {s t : State} (h : step s = .next t) :
    (s.host = [] ∧ t = s) ∨
    (∃ fs rest, s.host = .construct fs :: rest ∧ failingCheck fs = none ∧
      t = resetBlock { s with phase := .run, cfg := configOf fs, host := rest }) ∨
    (∃ rest, s.host = .reset :: rest ∧ s.phase = .run ∧ t = resetBlock { s with host := rest }) ∨
    (∃ c rest i, s.host = .command c :: rest ∧ s.ready = true ∧ decode c = .ok i ∧
      exec i { s with host := rest } = .next t) := by
  unfold step at h
  cases hh : s.host with
  | nil => rw [hh] at h; exact .inl ⟨rfl, by simpa using h.symm⟩
  | cons a rest =>
    rw [hh] at h
    dsimp only at h
    cases a with
    | construct fs =>
      obtain ⟨h1, h2⟩ := construct_next h
      exact .inr (.inl ⟨fs, rest, rfl, h1, h2⟩)
    | reset =>
      obtain ⟨h1, h2⟩ := issueReset_next h
      exact .inr (.inr (.inl ⟨rest, rfl, h1, h2⟩))
    | command c =>
      obtain ⟨h1, i, h2, h3⟩ := issueCommand_next h
      exact .inr (.inr (.inr ⟨c, rest, i, rfl, h1, h2, h3⟩))

theorem step_cons {s : State} {a : HostAction} {rest : List HostAction} (h : s.host = a :: rest) :
    step s = takeAction a { s with host := rest } := by
  unfold step; rw [h]

theorem step_command {s : State} {c : Presented} {rest : List HostAction} (h : s.host = .command c :: rest)
    (hr : s.ready = true) :
    step s = match decode c with
      | .ok i => exec i { s with host := rest }
      | .error (.reservedCommand w) => .refused (.reservedCommand w) := by
  rw [step_cons h]
  exact issueCommand_ready hr

end Sys2Proof.Machine
end

