-- ==== Sys2Proof/Laws/Limit.lean ====
section
/-! SUPPORT. LIMIT on integers: ports, the legal configuration as inequalities, and each branch of the limiter said
once (spec/40_limiter.md). -/

namespace Sys2Proof.Machine

/-! ## Ports -/

theorem readInt16_range (x : I16) : -32768 ≤ readInt16 x ∧ readInt16 x ≤ 32767 := by
  have h1 := BitVec.le_toInt x
  have h2 := BitVec.toInt_lt (x := x)
  unfold readInt16
  constructor <;> norm_num at * <;> omega

/-- An integer in the int16 range crosses a port unchanged. -/
theorem readInt16_int16Port {v : Int} (h1 : -32768 ≤ v) (h2 : v ≤ 32767) : readInt16 (int16Port v) = v := by
  unfold readInt16 int16Port
  rw [BitVec.toInt_ofInt]
  rw [Int.bmod_def]
  split <;> norm_num at * <;> omega

theorem int16Port_readInt16 (x : I16) : int16Port (readInt16 x) = x := BitVec.ofInt_toInt

/-! ## The legal configuration -/

theorem wellFormed_iff (c : LimiterConfig) : c.wellFormed = true ↔
    (1 ≤ c.maxModule.toNat ∧ c.maxModule.toNat ≤ 32767) ∧ c.maxVd.toNat ≤ c.maxModule.toNat ∧
      c.startIndex.toNat ≤ 128 ∧ (∀ i : Fin 87, (c.table[i.val]).toNat ≤ 32767) ∧
      (∀ i : Fin 86, (c.table[i.val + 1]).toNat ≤ (c.table[i.val]).toNat) := by
  simp only [LimiterConfig.wellFormed, LimiterConfig.maxModuleOk, LimiterConfig.maxVdOk,
    LimiterConfig.startIndexOk, LimiterConfig.tableRangeOk, LimiterConfig.tableMonotonicOk, Bool.and_eq_true,
    decide_eq_true_eq]
  tauto

theorem tableRead_nonneg (c : LimiterConfig) (i : Fin 87) : 0 ≤ tableRead c i := by unfold tableRead; omega

theorem tableRead_le {c : LimiterConfig} (h : c.wellFormed = true) (i : Fin 87) : tableRead c i ≤ 32767 := by
  have := ((wellFormed_iff c).mp h).2.2.2.1 i
  unfold tableRead; omega

/-- An entry found by `[i]?` is the one `TableRead` reads. -/
theorem tableRead_of_getElem? {c : LimiterConfig} {n : Nat} {k : BitVec 16} (h : c.table[n]? = some k) :
    ∃ hn : n < 87, tableRead c ⟨n, hn⟩ = k.toNat := by
  rw [Vector.getElem?_eq_some_iff] at h
  obtain ⟨hn, hk⟩ := h
  exact ⟨hn, by unfold tableRead; rw [hk]⟩

/-! ## The steps of the limiter -/

theorem sumSq_cast (q d : Int) : (sumSq q d : Int) = q * q + d * d := by
  unfold sumSq; have := mul_self_nonneg q; have := mul_self_nonneg d; omega

theorem inCircle_iff (c : LimiterConfig) (q d : Int) :
    inCircle c q d = true ↔ q * q + d * d ≤ maxModule c * maxModule c := by
  unfold inCircle; rw [sumSq_cast, decide_eq_true_eq]

theorem rawIndex_eq (c : LimiterConfig) (q d : Int) :
    rawIndex c q d = (q * q + d * d) / 2 ^ 24 - (c.startIndex.toNat : Int) := by
  unfold rawIndex startIndex
  rw [Nat.shiftRight_eq_div_pow, ← sumSq_cast]
  norm_num

theorem scale_eq (v k : Int) : scale v k = Int.tdiv (v * k) 32768 := rfl

theorem scale_natAbs_le {v k : Int} (h0 : 0 ≤ k) (hk : k ≤ 32767) : (scale v k).natAbs ≤ v.natAbs := by
  have h : (scale v k).natAbs = (v * k).natAbs / 32768 := tdiv_natAbs (v * k) 32768
  rw [h, Int.natAbs_mul]
  apply Nat.div_le_of_le_mul
  rw [Nat.mul_comm]
  exact Nat.mul_le_mul_right _ (by omega)

theorem scale_mul_nonneg {v k : Int} (h0 : 0 ≤ k) : 0 ≤ scale v k * v := by
  have h := tdiv_mul_self_nonneg (v * k) 32768
  rcases h0.eq_or_lt with rfl | hk
  · simp [scale, tdiv]
  · have h' : 0 ≤ scale v k * v * k := by unfold scale; rw [mul_assoc]; exact h
    by_contra hc
    nlinarith

/-- Truncation only shrinks: the scaled component, times 2^15, is no longer than the product. -/
theorem scale_sq_le {v k : Int} : (scale v k * 32768) * (scale v k * 32768) ≤ (v * k) * (v * k) := by
  have h : (scale v k).natAbs = (v * k).natAbs / 32768 := tdiv_natAbs (v * k) 32768
  have h1 : (scale v k * 32768).natAbs ≤ (v * k).natAbs := by
    rw [Int.natAbs_mul, h]; exact Nat.div_mul_le_self _ _
  rw [← Int.natAbs_mul_self' (scale v k * 32768), ← Int.natAbs_mul_self' (v * k)]
  exact_mod_cast Nat.mul_le_mul h1 h1

theorem exactD_bounds (c : LimiterConfig) (d : Int) :
    -maxVd c ≤ exactD c d ∧ exactD c d ≤ maxVd c ∧ 0 ≤ exactD c d * d := by
  have h0 : 0 ≤ maxVd c := by unfold maxVd; omega
  unfold exactD
  split
  · exact ⟨by omega, by omega, mul_self_nonneg d⟩
  · split
    · exact ⟨by omega, by omega, by nlinarith⟩
    · exact ⟨by omega, by omega, by nlinarith⟩

/-- EXACT mode's quadrature magnitude is the integer root of what the direct component leaves. -/
theorem exactMq_spec {c : LimiterConfig} (h : c.wellFormed = true) (d : Int) :
    0 ≤ exactMq c d ∧
    exactMq c d * exactMq c d ≤ maxModule c * maxModule c - exactD c d * exactD c d ∧
    maxModule c * maxModule c - exactD c d * exactD c d < (exactMq c d + 1) * (exactMq c d + 1) := by
  obtain ⟨h1, h2, -⟩ := exactD_bounds c d
  have hv : maxVd c ≤ maxModule c := by
    have := ((wellFormed_iff c).mp h).2.1; unfold maxVd maxModule; omega
  have hnn : 0 ≤ maxModule c * maxModule c - exactD c d * exactD c d := by nlinarith
  obtain ⟨a, b⟩ := isqrt_spec (maxModule c * maxModule c - exactD c d * exactD c d).toNat
  unfold exactMq
  generalize isqrt (maxModule c * maxModule c - exactD c d * exactD c d).toNat = r at *
  have a' : ((r * r : ℕ) : Int) ≤ ((maxModule c * maxModule c - exactD c d * exactD c d).toNat : Int) := by
    exact_mod_cast a
  have b' : ((maxModule c * maxModule c - exactD c d * exactD c d).toNat : Int) < (((r + 1) * (r + 1) : ℕ) : Int) := by
    exact_mod_cast b
  rw [Int.toNat_of_nonneg hnn] at a' b'
  push_cast at a' b'
  exact ⟨by omega, a', b'⟩

theorem exactMq_le {c : LimiterConfig} (h : c.wellFormed = true) (d : Int) : exactMq c d ≤ 32767 := by
  obtain ⟨h0, h1, -⟩ := exactMq_spec h d
  have hm : maxModule c ≤ 32767 := by
    have := ((wellFormed_iff c).mp h).1.2; unfold maxModule; omega
  have hm0 : 0 ≤ maxModule c := by unfold maxModule; omega
  have := mul_self_nonneg (exactD c d)
  by_contra hc
  nlinarith

theorem exactQ_cases (c : LimiterConfig) (q d : Int) :
    exactQ c q d = if q < 0 then -exactMq c d else exactMq c d := rfl

/-! ## The branches -/

/-- What LIMIT's integer result can be (R60). -/
theorem limitResult_cases (c : LimiterConfig) (q d : Int) :
    (inCircle c q d = true ∧ limitResult c q d = .ok (q, d)) ∨
    (inCircle c q d = false ∧ c.limitMode = .table ∧ ∃ i, tableIndex c (rawIndex c q d) = some i ∧
      limitResult c q d = .ok (scale q (tableRead c i), scale d (tableRead c i))) ∨
    (inCircle c q d = false ∧ c.limitMode = .table ∧ tableIndex c (rawIndex c q d) = none ∧
      limitResult c q d = .error (.tableIndexOutOfRange (rawIndex c q d))) ∨
    (inCircle c q d = false ∧ c.limitMode = .exact ∧ limitResult c q d = .ok (exactQ c q d, exactD c d)) := by
  unfold limitResult
  cases h : inCircle c q d
  · cases hm : c.limitMode
    · cases hi : tableIndex c (rawIndex c q d) <;> simp
    · simp
  · simp

/-- A result fits in int16 and keeps the signs (R70). -/
theorem limitResult_bounds {c : LimiterConfig} (h : c.wellFormed = true) {q d : I16} {r : Int × Int}
    (hr : limitResult c (readInt16 q) (readInt16 d) = .ok r) :
    -32768 ≤ r.1 ∧ r.1 ≤ 32767 ∧ -32768 ≤ r.2 ∧ r.2 ≤ 32767 := by
  obtain ⟨q1, q2⟩ := readInt16_range q
  obtain ⟨d1, d2⟩ := readInt16_range d
  have sc : ∀ (v : Int) i, -32768 ≤ v → v ≤ 32767 → -32768 ≤ scale v (tableRead c i) ∧ scale v (tableRead c i) ≤ 32767 := by
    intro v i h1 h2
    have a := scale_natAbs_le (v := v) (tableRead_nonneg c i) (tableRead_le h i)
    have b := scale_mul_nonneg (v := v) (tableRead_nonneg c i)
    have : v = -32768 → scale v (tableRead c i) ≤ 32767 := by
      rintro rfl; by_contra hc; nlinarith
    omega
  rcases limitResult_cases c (readInt16 q) (readInt16 d) with ⟨-, e⟩ | ⟨-, -, i, -, e⟩ | ⟨-, -, -, e⟩ | ⟨-, -, e⟩
  · rw [e] at hr; obtain rfl := Except.ok.inj hr; exact ⟨q1, q2, d1, d2⟩
  · rw [e] at hr; obtain rfl := Except.ok.inj hr
    exact ⟨(sc _ i q1 q2).1, (sc _ i q1 q2).2, (sc _ i d1 d2).1, (sc _ i d1 d2).2⟩
  · rw [e] at hr; simp at hr
  · rw [e] at hr; obtain rfl := Except.ok.inj hr
    have m1 := exactMq_le h (readInt16 d)
    have m0 := (exactMq_spec h (readInt16 d)).1
    obtain ⟨e1, e2, -⟩ := exactD_bounds c (readInt16 d)
    have hv : maxVd c ≤ 32767 := by
      have := (wellFormed_iff c).mp h; unfold maxVd; omega
    dsimp only
    rw [exactQ_cases]
    split <;> omega

/-- The ports of a LIMIT that completes read as its integer result. -/
theorem limit_ports {c : LimiterConfig} (h : c.wellFormed = true) {q d : I16} {r : Int × Int}
    (hr : limitResult c (readInt16 q) (readInt16 d) = .ok r) :
    readInt16 (int16Port r.1) = r.1 ∧ readInt16 (int16Port r.2) = r.2 := by
  obtain ⟨h1, h2, h3, h4⟩ := limitResult_bounds h hr
  exact ⟨readInt16_int16Port h1 h2, readInt16_int16Port h3 h4⟩

end Sys2Proof.Machine
end

