-- ==== Sys2Proof/Laws/Construct.lean ====
section
/-! SUPPORT. What a construction whose checks pass loads (spec/10_state.md R28). -/

namespace Sys2Proof.Machine

/-- A construction is accepted exactly if every check passes. -/
theorem failingCheck_eq_none {fs : List (Nat × Int)} :
    failingCheck fs = none ↔ ∀ c, passes fs c = true := by
  unfold failingCheck
  rw [List.find?_eq_none]
  constructor
  · intro h c
    simpa using h c (by cases c <;> simp [allChecks])
  · intro h c _
    simp [h c]

/-- A check named by a refusal fails. -/
theorem failingCheck_fails {fs : List (Nat × Int)} {c : ConfigCheck} (h : failingCheck fs = some c) :
    passes fs c = false := by
  unfold failingCheck at h
  simpa using List.find?_some h

theorem valueIn_iff {lo hi : Int} {o : Option Int} :
    valueIn lo hi o = true ↔ ∃ v, o = some v ∧ lo ≤ v ∧ v ≤ hi := by
  cases o <;> simp [valueIn]

theorem loaded_of_soleValue {fs : List (Nat × Int)} {n : Nat} {v : Int} (h : soleValue fs n = some v) :
    loaded fs n = v := by
  unfold loaded; rw [h]; rfl

/-- A field given once has the loaded value. -/
theorem given_eq_loaded {fs : List (Nat × Int)} {n : Nat} (h : (given fs n).length = 1) :
    given fs n = [loaded fs n] := by
  obtain ⟨v, hv⟩ := List.length_eq_one_iff.mp h
  rw [hv, loaded_of_soleValue (v := v) (by unfold soleValue; rw [hv])]

/-! ## The checks against R28's table -/

theorem mem_given {fs : List (Nat × Int)} {n : Nat} {v : Int} : v ∈ given fs n ↔ (n, v) ∈ fs := by
  simp [given]

theorem given_length (fs : List (Nat × Int)) (n : Nat) :
    (given fs n).length = fs.countP (fun f => f.1 == n) := by
  simp [given, List.countP_eq_length_filter]

/-- A field has a sole value exactly if it is given once, with that value. -/
theorem soleValue_eq_some {fs : List (Nat × Int)} {n : Nat} {v : Int} :
    soleValue fs n = some v ↔ FieldIs fs n v := by
  rw [FieldIs, ← mem_given, ← given_length]
  unfold soleValue
  rcases given fs n with _ | ⟨w, _ | ⟨x, l⟩⟩
  · simp
  · simp [eq_comm]
  · simp

theorem valueIn_soleValue {fs : List (Nat × Int)} {n : Nat} {lo hi : Int} :
    valueIn lo hi (soleValue fs n) = true ↔ ∃ v, FieldIs fs n v ∧ lo ≤ v ∧ v ≤ hi := by
  simp only [valueIn_iff, soleValue_eq_some]

theorem given_length_eq_one {fs : List (Nat × Int)} {n : Nat} :
    (given fs n).length = 1 ↔ ∃ v, FieldIs fs n v := by
  constructor
  · intro h
    exact ⟨loaded fs n, by rw [FieldIs, ← mem_given, ← given_length, given_eq_loaded h]; simp⟩
  · rintro ⟨v, hv⟩
    rw [given_length]; exact hv.2

/-- The loader's checks are the rows of R28's table, one by one. -/
theorem passes_iff_checkHolds (fs : List (Nat × Int)) (c : ConfigCheck) :
    passes fs c = true ↔ CheckHolds fs c := by
  cases c with
  | maxModuleRange => exact valueIn_soleValue
  | maxVdRange =>
    simp only [passes, CheckHolds]
    cases h : soleValue fs 0x00 with
    | none =>
      refine iff_of_false (by simp) ?_
      rintro ⟨m, v, hm, -⟩
      rw [← soleValue_eq_some, h] at hm
      simp at hm
    | some m =>
      rw [valueIn_soleValue]
      constructor
      · rintro ⟨v, hv, hr⟩
        exact ⟨m, v, soleValue_eq_some.mp h, hv, hr⟩
      · rintro ⟨m', v, hm, hv, hr⟩
        rw [← soleValue_eq_some, h] at hm
        obtain rfl := Option.some.inj hm
        exact ⟨v, hv, hr⟩
  | startIndexRange => exact valueIn_soleValue
  | tableLength =>
    simp only [passes, CheckHolds, List.all_eq_true, List.mem_range, beq_iff_eq, given_length_eq_one]
    rfl
  | tableRange =>
    simp only [passes, CheckHolds, List.all_eq_true, List.mem_range, Bool.and_eq_true, decide_eq_true_eq,
      mem_given]
    rfl
  | tableMonotonic =>
    simp only [passes, CheckHolds, List.all_eq_true, List.mem_range, decide_eq_true_eq, mem_given, tableField]
    exact forall_congr' fun i => ⟨fun h hi v w hv hw => h (by omega) v hv w hw,
      fun h hi v hv w hw => h (by omega) v w hv hw⟩
  | modeValue =>
    refine valueIn_soleValue.trans (exists_congr fun v => and_congr_right fun _ => ?_)
    simp only [codeOfMode]; omega
  | policyValue =>
    refine valueIn_soleValue.trans (exists_congr fun v => and_congr_right fun _ => ?_)
    simp only [codeOfPolicy]; omega
  | noReserved =>
    simp only [passes, CheckHolds, List.all_eq_true, reservedField, Bool.not_eq_true', Bool.or_eq_false_iff,
      Bool.and_eq_false_iff, decide_eq_false_iff_not]
    exact forall_congr' fun f => forall_congr' fun _ => by omega

/-- The value loaded for a field given once is the one given. -/
theorem loaded_of_fieldIs {fs : List (Nat × Int)} {n : Nat} {v : Int} (h : FieldIs fs n v) : loaded fs n = v :=
  loaded_of_soleValue (soleValue_eq_some.mpr h)

theorem toNat_ofInt_of_range {n : Nat} {v : Int} (h0 : 0 ≤ v) (h : v < ((2 ^ n : Nat) : Int)) :
    ((BitVec.ofInt n v).toNat : Int) = v := by
  rw [BitVec.toNat_ofInt, Int.emod_eq_of_lt h0 h]
  omega

/-- The ranges of the loaded values when every check passes. -/
theorem loaded_ranges {fs : List (Nat × Int)} (h : ∀ c, passes fs c = true) :
    (1 ≤ loaded fs 0x00 ∧ loaded fs 0x00 ≤ 32767) ∧
    (0 ≤ loaded fs 0x01 ∧ loaded fs 0x01 ≤ loaded fs 0x00) ∧
    (0 ≤ loaded fs 0x02 ∧ loaded fs 0x02 ≤ 128) ∧
    (0 ≤ loaded fs 0x03 ∧ loaded fs 0x03 ≤ 1) ∧
    (0 ≤ loaded fs 0x04 ∧ loaded fs 0x04 ≤ 1) ∧
    (∀ i < 87, 0 ≤ loaded fs (tableField i) ∧ loaded fs (tableField i) ≤ 32767) ∧
    (∀ i < 86, loaded fs (tableField (i + 1)) ≤ loaded fs (tableField i)) := by
  obtain ⟨v0, e0, h0⟩ := valueIn_iff.mp (h .maxModuleRange)
  have h1 := h .maxVdRange
  unfold passes at h1
  simp only [e0] at h1
  obtain ⟨v1, e1, h1⟩ := valueIn_iff.mp h1
  obtain ⟨v2, e2, h2⟩ := valueIn_iff.mp (h .startIndexRange)
  obtain ⟨v3, e3, h3⟩ := valueIn_iff.mp (h .modeValue)
  obtain ⟨v4, e4, h4⟩ := valueIn_iff.mp (h .policyValue)
  have hl := h .tableLength
  have ht := h .tableRange
  have hm := h .tableMonotonic
  simp only [passes, List.all_eq_true, List.mem_range, beq_iff_eq, Bool.and_eq_true, decide_eq_true_eq]
    at hl ht hm
  have hg : ∀ i < 87, given fs (tableField i) = [loaded fs (tableField i)] :=
    fun i hi => given_eq_loaded (hl i hi)
  rw [loaded_of_soleValue e0, loaded_of_soleValue e1, loaded_of_soleValue e2, loaded_of_soleValue e3,
    loaded_of_soleValue e4]
  refine ⟨h0, h1, h2, h3, h4, fun i hi => ?_, fun i hi => ?_⟩
  · exact ht i hi _ (by rw [hg i hi]; exact List.mem_singleton_self _)
  · exact hm i hi _ (by rw [hg i (by omega)]; exact List.mem_singleton_self _) _
      (by rw [hg (i + 1) (by omega)]; exact List.mem_singleton_self _)

/-- The table register loaded from its field. -/
theorem configOf_table {fs : List (Nat × Int)} (h : ∀ c, passes fs c = true) (i : Fin 87) :
    (((configOf fs).table[i.val]).toNat : Int) = loaded fs (tableField i.val) := by
  have hr := (loaded_ranges h).2.2.2.2.2.1 i.val i.isLt
  have e : (configOf fs).table[i.val] = BitVec.ofInt 16 (loaded fs (tableField i.val)) := by
    unfold configOf; exact Vector.getElem_ofFn _
  rw [e]
  exact toNat_ofInt_of_range hr.1 (by norm_num; omega)

/-- What passes the checks is a configuration a block may hold. -/
theorem configOf_wellFormed {fs : List (Nat × Int)} (h : ∀ c, passes fs c = true) :
    (configOf fs).wellFormed = true := by
  obtain ⟨hm, hv, hs, -, -, ht, hmono⟩ := loaded_ranges h
  have e0 : ((configOf fs).maxModule.toNat : Int) = loaded fs 0x00 :=
    toNat_ofInt_of_range (by omega) (by norm_num; omega)
  have e1 : ((configOf fs).maxVd.toNat : Int) = loaded fs 0x01 :=
    toNat_ofInt_of_range (by omega) (by norm_num; omega)
  have e2 : ((configOf fs).startIndex.toNat : Int) = loaded fs 0x02 :=
    toNat_ofInt_of_range (by omega) (by norm_num; omega)
  rw [wellFormed_iff]
  refine ⟨⟨by omega, by omega⟩, by omega, by omega, fun i => ?_, fun i => ?_⟩
  · have := configOf_table h i
    have := ht i.val i.isLt
    omega
  · have h1 : (((configOf fs).table[i.val]).toNat : Int) = _ := configOf_table h ⟨i.val, by omega⟩
    have h2 : (((configOf fs).table[i.val + 1]).toNat : Int) = _ := configOf_table h ⟨i.val + 1, by omega⟩
    have h3 := hmono i.val i.isLt
    dsimp only at h1 h2
    omega

end Sys2Proof.Machine
end

