-- ==== Sys2Proof/Laws/Decode.lean ====
section
/-! SUPPORT. The decoder and the encoder, each said once (spec/30_encoding.md R50 to R52). -/

namespace Sys2Proof

/-- A word spells a command exactly if it is that command's word. -/
theorem decodeWord_eq_some (w : CmdWord) (k : Command) : decodeWord w = some k ↔ w = Command.word k := by
  cases k <;> revert w <;> decide +kernel

theorem decodeWord_word (k : Command) : decodeWord (Command.word k) = some k :=
  (decodeWord_eq_some _ k).mpr rfl

/-- A word that spells no command is none of the three. -/
theorem decodeWord_eq_none (w : CmdWord) :
    decodeWord w = none ↔ w ≠ 0x01#8 ∧ w ≠ 0x02#8 ∧ w ≠ 0x03#8 := by
  revert w; decide +kernel

/-- The words that spell a command are the well-formed ones. -/
theorem decodeWord_isSome (w : CmdWord) : (decodeWord w).isSome = CmdWord.wellFormed w := by
  revert w; decide +kernel

theorem readOperands_command (k : Command) (p : InputPorts) : (readOperands k p).command = k := by
  cases k <;> rfl

theorem encode_word (i : Instr) : (encode i).word = Command.word i.command := by cases i <;> rfl

theorem readOperands_encode (i : Instr) : readOperands i.command (encode i).ports = i := by cases i <;> rfl

theorem decode_of_word {c : Presented} {k : Command} (h : decodeWord c.word = some k) :
    decode c = .ok (readOperands k c.ports) := by
  unfold decode; rw [h]

theorem decode_of_reserved {c : Presented} (h : decodeWord c.word = none) :
    decode c = .error (.reservedCommand c.word) := by
  unfold decode; rw [h]

end Sys2Proof
end

