-- ==== Sys2Proof/Laws/Float.lean ====
section
/-! SUPPORT. Packing and unpacking binary64, and that `roundPack` rounds correctly (spec/00_scope.md R9). The
claims about each operation rest on `roundPack_correct`. -/

namespace Sys2Proof.Machine

/-! ## The fields of a packed value -/

theorem expField_lt (x : B64) : expField x < 2048 := (x.extractLsb' 52 11).isLt

theorem fracField_lt (x : B64) : fracField x < 2 ^ 52 := (x.extractLsb' 0 52).isLt

theorem expField_eq (x : B64) : expField x = x.toNat / 2 ^ 52 % 2 ^ 11 := by
  simp [expField, BitVec.extractLsb'_toNat, Nat.shiftRight_eq_div_pow]

theorem fracField_eq (x : B64) : fracField x = x.toNat % 2 ^ 52 := by
  simp [fracField, BitVec.extractLsb'_toNat]

theorem signBit_eq (x : B64) : signBit x = decide (2 ^ 63 ≤ x.toNat) := by
  have := x.isLt
  simp only [signBit, BitVec.getLsbD, Nat.testBit_eq_decide_div_mod_eq]
  congr 1
  apply propext
  omega

theorem withSign_toNat (neg : Bool) {mag : Nat} (h : mag < 2 ^ 63) :
    (withSign neg mag).toNat = (if neg then 2 ^ 63 else 0) + mag := by
  have h' : mag % 2 ^ 63 = mag := Nat.mod_eq_of_lt h
  simp only [withSign, BitVec.toNat_append, BitVec.toNat_ofNat, h']
  rw [Nat.shiftLeft_eq, Nat.mul_comm, ← Nat.two_pow_add_eq_or_of_lt h]
  cases neg <;> simp

theorem expField_withSign (neg : Bool) {mag : Nat} (h : mag < 2 ^ 63) :
    expField (withSign neg mag) = mag / 2 ^ 52 := by
  rw [expField_eq, withSign_toNat neg h]
  cases neg
  · simp; omega
  · simp; omega

theorem fracField_withSign (neg : Bool) {mag : Nat} (h : mag < 2 ^ 63) :
    fracField (withSign neg mag) = mag % 2 ^ 52 := by
  rw [fracField_eq, withSign_toNat neg h]
  cases neg
  · simp
  · simp; omega

theorem signBit_withSign (neg : Bool) {mag : Nat} (h : mag < 2 ^ 63) :
    signBit (withSign neg mag) = neg := by
  rw [signBit_eq, withSign_toNat neg h]
  cases neg
  · simp; omega
  · simp

/-- Three fields make the value. -/
theorem eq_withSign (x : B64) :
    x = withSign (signBit x) (expField x * 2 ^ 52 + fracField x) := by
  have h1 := expField_lt x
  have h2 := fracField_lt x
  have h3 := x.isLt
  apply BitVec.eq_of_toNat_eq
  rw [withSign_toNat _ (by omega), signBit_eq]
  rw [expField_eq] at *
  rw [fracField_eq] at *
  generalize x.toNat = n at *
  by_cases h : 2 ^ 63 ≤ n <;> simp only [h, decide_true, decide_false, if_true] <;> norm_num at * <;> omega

/-! ## The value of a packed value -/

/-- `±1`. -/
def signFactor (neg : Bool) : ℚ := if neg then -1 else 1

theorem signFactor_sq (neg : Bool) : signFactor neg * signFactor neg = 1 := by
  cases neg <;> norm_num [signFactor]

theorem unpack_finite {x : B64} (h : isFinite x = true) :
    ∃ m e, unpack x = .fin (signBit x) m e ∧ m < 2 ^ 53 ∧ -1074 ≤ e := by
  have hx : expField x ≠ 2047 := by simpa [isFinite] using h
  have hf := fracField_lt x
  unfold unpack
  rw [if_neg hx]
  split
  · exact ⟨_, _, rfl, by omega, le_refl _⟩
  · exact ⟨_, _, rfl, by omega, by omega⟩

theorem isFinite_of_unpack {x : B64} {a : Bool} {m : Nat} {e : Int} (h : unpack x = .fin a m e) :
    isFinite x = true := by
  unfold unpack at h
  by_cases hx : expField x = 2047
  · rw [if_pos hx] at h; split at h <;> simp at h
  · simpa [isFinite] using hx

theorem floatValue_of_unpack {x : B64} {a : Bool} {m : Nat} {e : Int} (h : unpack x = .fin a m e) :
    floatValue x = signFactor a * m * 2 ^ e := by
  simp [floatValue, h, signFactor]

/-- A finite value is an integer of at most 53 bits times a power of two that is no subnormal's unit less. -/
theorem floatValue_form {z : B64} (h : isFinite z = true) :
    ∃ (n : ℤ) (f : ℤ), |n| < 2 ^ 53 ∧ -1074 ≤ f ∧ floatValue z = n * 2 ^ f := by
  obtain ⟨m, e, hu, hm, he⟩ := unpack_finite h
  refine ⟨(if signBit z then -1 else 1) * m, e, ?_, he, ?_⟩
  · split <;> simp only [neg_mul, one_mul, abs_neg, Nat.abs_cast] <;> exact_mod_cast hm
  · rw [floatValue_of_unpack hu]; push_cast [signFactor]; split <;> simp

theorem unpack_withSign (neg : Bool) {q sig : Nat} (hs : sig ≤ 2 ^ 53) (hq : 0 < q → 2 ^ 52 ≤ sig)
    (hlt : q * 2 ^ 52 + sig < 2047 * 2 ^ 52) :
    ∃ m e, unpack (withSign neg (q * 2 ^ 52 + sig)) = .fin neg m e ∧
      (m : ℚ) * 2 ^ e = sig * 2 ^ ((q : ℤ) - 1074) := by
  have h63 : q * 2 ^ 52 + sig < 2 ^ 63 := by omega
  unfold unpack
  rw [expField_withSign neg h63, fracField_withSign neg h63, signBit_withSign neg h63,
    if_neg (by omega)]
  by_cases h1 : sig < 2 ^ 52
  · obtain rfl : q = 0 := by by_contra h; have := hq (by omega); omega
    rw [if_pos (by omega)]
    exact ⟨_, _, rfl, by rw [Nat.mod_eq_of_lt (by omega)]; simp⟩
  · rw [if_neg (by omega)]
    refine ⟨_, _, rfl, ?_⟩
    by_cases h2 : sig < 2 ^ 53
    · have e1 : (q * 2 ^ 52 + sig) % 2 ^ 52 + 2 ^ 52 = sig := by omega
      have e2 : (((q * 2 ^ 52 + sig) / 2 ^ 52 : ℕ) : ℤ) - 1075 = q - 1074 := by omega
      rw [e1, e2]
    · have h3 : sig = 2 ^ 53 := by omega
      have e1 : (q * 2 ^ 52 + sig) % 2 ^ 52 + 2 ^ 52 = 2 ^ 52 := by omega
      have e2 : (((q * 2 ^ 52 + sig) / 2 ^ 52 : ℕ) : ℤ) - 1075 = (q - 1074) + 1 := by omega
      rw [e1, e2, h3, zpow_add₀ (by norm_num)]
      push_cast; ring

/-! ## Rounding -/

/-- With the last kept bit at `2^Q` and the exact magnitude `v` between two neighbouring multiples, no value of the
format lies strictly between them, so the nearer of the two is a nearest value of the format; `sig` names it. -/
theorem nearest_core {Q f : ℤ} {kept sig : ℕ} {v : ℝ} {n : ℤ} (hf : -1074 ≤ f) (hn : |n| < 2 ^ 53)
    (hk : -1074 < Q → 2 ^ 52 ≤ kept)
    (h1 : (kept : ℝ) * 2 ^ Q ≤ v) (h2 : v < (kept + 1) * 2 ^ Q)
    (hs : sig = kept ∧ v - kept * 2 ^ Q < (kept + 1) * 2 ^ Q - v ∨
      sig = kept + 1 ∧ (kept + 1) * 2 ^ Q - v < v - kept * 2 ^ Q ∨
      (sig = kept ∨ sig = kept + 1) ∧ v - kept * 2 ^ Q = (kept + 1) * 2 ^ Q - v ∧ sig % 2 = 0) :
    |(sig : ℝ) * 2 ^ Q - v| ≤ |(n : ℝ) * 2 ^ f - v| ∧
    (|(sig : ℝ) * 2 ^ Q - v| = |(n : ℝ) * 2 ^ f - v| → (n : ℝ) * 2 ^ f ≠ sig * 2 ^ Q → sig % 2 = 0) := by
  have hout : (n : ℝ) * 2 ^ f ≤ kept * 2 ^ Q ∨ (kept + 1) * 2 ^ Q ≤ (n : ℝ) * 2 ^ f := by
    by_cases hQf : Q ≤ f
    · obtain ⟨j, hj⟩ := Int.eq_ofNat_of_zero_le (sub_nonneg.mpr hQf)
      have hfQ : (2 : ℝ) ^ f = 2 ^ j * 2 ^ Q := by
        rw [show f = (j : ℤ) + Q by omega, zpow_add₀ (by norm_num), zpow_natCast]
      have hpos : (0 : ℝ) < 2 ^ Q := by positivity
      rw [hfQ, ← mul_assoc]
      by_cases hc : n * 2 ^ j ≤ (kept : ℤ)
      · left
        have : ((n * 2 ^ j : ℤ) : ℝ) ≤ ((kept : ℤ) : ℝ) := by exact_mod_cast hc
        push_cast at this
        exact mul_le_mul_of_nonneg_right this hpos.le
      · right
        have hc' : (kept : ℤ) + 1 ≤ n * 2 ^ j := by omega
        have : (((kept : ℤ) + 1 : ℤ) : ℝ) ≤ ((n * 2 ^ j : ℤ) : ℝ) := by exact_mod_cast hc'
        push_cast at this
        exact mul_le_mul_of_nonneg_right this hpos.le
    · left
      have hkept : (2 : ℝ) ^ 52 ≤ kept := by exact_mod_cast hk (by omega)
      have hn' : (n : ℝ) ≤ 2 ^ 53 := by
        have : n ≤ 2 ^ 53 := by have := abs_lt.mp hn; omega
        exact_mod_cast this
      have hfp : (0 : ℝ) < 2 ^ f := by positivity
      have hstep : (2 : ℝ) ^ (f + 1) ≤ 2 ^ Q := zpow_le_zpow_right₀ (by norm_num) (by omega)
      rw [zpow_add₀ (by norm_num), zpow_one] at hstep
      nlinarith
  have hlow : v - kept * 2 ^ Q ≤ |(n : ℝ) * 2 ^ f - v| ∨ (kept + 1) * 2 ^ Q - v ≤ |(n : ℝ) * 2 ^ f - v| := by
    rcases hout with h | h
    · left; rw [abs_sub_comm]; exact le_trans (by linarith) (le_abs_self _)
    · right; exact le_trans (by linarith) (le_abs_self _)
  have hrk : |(kept : ℝ) * 2 ^ Q - v| = v - kept * 2 ^ Q := by
    rw [abs_sub_comm, abs_of_nonneg (by linarith)]
  have hrk1 : |((kept : ℝ) + 1) * 2 ^ Q - v| = (kept + 1) * 2 ^ Q - v := abs_of_nonneg (by linarith)
  rcases hs with ⟨rfl, h⟩ | ⟨rfl, h⟩ | ⟨hs, h, he⟩
  · rw [hrk]
    refine ⟨by rcases hlow with h' | h' <;> linarith, fun heq hne => absurd ?_ hne⟩
    rcases hout with h' | h'
    · have : |(n : ℝ) * 2 ^ f - v| = v - n * 2 ^ f := by
        rw [abs_sub_comm, abs_of_nonneg (by linarith)]
      linarith
    · have : |(n : ℝ) * 2 ^ f - v| = n * 2 ^ f - v := abs_of_nonneg (by linarith)
      linarith
  · push_cast
    rw [hrk1]
    refine ⟨by rcases hlow with h' | h' <;> linarith, fun heq hne => absurd ?_ hne⟩
    rcases hout with h' | h'
    · have : |(n : ℝ) * 2 ^ f - v| = v - n * 2 ^ f := by
        rw [abs_sub_comm, abs_of_nonneg (by linarith)]
      linarith
    · have : |(n : ℝ) * 2 ^ f - v| = n * 2 ^ f - v := abs_of_nonneg (by linarith)
      linarith
  · refine ⟨?_, fun _ _ => he⟩
    rcases hs with rfl | rfl
    · rw [hrk]; rcases hlow with h' | h' <;> linarith
    · push_cast; rw [hrk1]; rcases hlow with h' | h' <;> linarith

/-- What `roundShift` answers: the nearer neighbour, and the even one of two equally near. -/
theorem roundShift_cases {m k : ℕ} {sticky : Bool} {δ : ℝ} (hk : 0 < k) (hδ0 : 0 ≤ δ) (hδ1 : δ < 1)
    (hst : sticky = true ↔ 0 < δ) :
    roundShift m k sticky = m / 2 ^ k ∧
        (m + δ) - (m / 2 ^ k : ℕ) * 2 ^ k < ((m / 2 ^ k : ℕ) + 1) * 2 ^ k - (m + δ) ∨
      roundShift m k sticky = m / 2 ^ k + 1 ∧
        ((m / 2 ^ k : ℕ) + 1) * 2 ^ k - (m + δ) < (m + δ) - (m / 2 ^ k : ℕ) * 2 ^ k ∨
      (roundShift m k sticky = m / 2 ^ k ∨ roundShift m k sticky = m / 2 ^ k + 1) ∧
        (m + δ) - (m / 2 ^ k : ℕ) * 2 ^ k = ((m / 2 ^ k : ℕ) + 1) * 2 ^ k - (m + δ) ∧
        roundShift m k sticky % 2 = 0 := by
  have hm : (m : ℝ) = (m / 2 ^ k : ℕ) * 2 ^ k + (m % 2 ^ k : ℕ) := by
    have := Nat.div_add_mod' m (2 ^ k)
    exact_mod_cast this.symm
  obtain ⟨j, rfl⟩ : ∃ j, k = j + 1 := ⟨k - 1, by omega⟩
  have hpow : (2 : ℝ) ^ (j + 1) = 2 * 2 ^ j := pow_succ' 2 j
  have hpowN : 2 ^ (j + 1) = 2 * 2 ^ j := pow_succ' 2 j
  unfold roundShift
  set kept := m / 2 ^ (j + 1)
  set rest := m % 2 ^ (j + 1)
  rcases lt_trichotomy (2 * rest) (2 ^ (j + 1)) with h | h | h
  · left
    have hle : rest + 1 ≤ 2 ^ j := by omega
    have hr : (rest : ℝ) + 1 ≤ 2 ^ j := by exact_mod_cast hle
    exact ⟨if_neg (by omega), by rw [hpow] at *; linarith⟩
  · have hr : (rest : ℝ) = 2 ^ j := by
      have : rest = 2 ^ j := by omega
      exact_mod_cast this
    cases hs : sticky
    · have hδ : δ = 0 := by
        by_contra hne
        have := hst.mpr (lt_of_le_of_ne hδ0 (Ne.symm hne))
        simp [hs] at this
      subst hδ
      right; right
      by_cases hodd : kept % 2 = 1
      · rw [if_pos (Or.inr ⟨h, Or.inr hodd⟩)]
        exact ⟨Or.inr rfl, by rw [hpow] at *; linarith, by omega⟩
      · rw [if_neg (by simp; omega)]
        exact ⟨Or.inl rfl, by rw [hpow] at *; linarith, by omega⟩
    · have hδ : 0 < δ := hst.mp hs
      right; left
      rw [if_pos (Or.inr ⟨h, Or.inl rfl⟩)]
      exact ⟨rfl, by rw [hpow] at *; linarith⟩
  · right; left
    have hle : 2 ^ j + 1 ≤ rest := by omega
    have hr : (2 : ℝ) ^ j + 1 ≤ rest := by exact_mod_cast hle
    exact ⟨if_pos (Or.inl h), by rw [hpow] at *; linarith⟩

theorem roundShift_le {m k : ℕ} {sticky : Bool} : roundShift m k sticky ≤ m / 2 ^ k + 1 ∧
    m / 2 ^ k ≤ roundShift m k sticky := by
  unfold roundShift; dsimp only; split <;> omega

theorem quantum_ge (m : ℕ) (e : ℤ) : -1074 ≤ quantum m e := le_max_right _ _

theorem quantum_ge' (m : ℕ) (e : ℤ) : e + Nat.log2 m - 52 ≤ quantum m e := le_max_left _ _

theorem quantum_eq {m : ℕ} {e : ℤ} (h : -1074 < quantum m e) : quantum m e = e + Nat.log2 m - 52 := by
  unfold quantum at *; omega

/-- Exactly representable: the significand in units of the quantum is the value itself. -/
theorem roundSig_exact {m : ℕ} {e : ℤ} {sticky : Bool} (h : quantum m e ≤ e) :
    ((roundSig m e sticky : ℕ) : ℝ) * 2 ^ quantum m e = m * 2 ^ e := by
  obtain ⟨j, hj⟩ := Int.eq_ofNat_of_zero_le (sub_nonneg.mpr h)
  rw [roundSig, if_pos h, hj]
  push_cast
  rw [show ((j : ℤ)).toNat = j by simp, mul_assoc, ← zpow_natCast, ← zpow_add₀ (by norm_num)]
  congr 2; omega

/-- The significand has at most 53 bits (or is `2^53` after a carry), and at least 53 away from the subnormals. -/
theorem roundSig_bounds {m : ℕ} (hm : 0 < m) (e : ℤ) (sticky : Bool) :
    roundSig m e sticky ≤ 2 ^ 53 ∧ (-1074 < quantum m e → 2 ^ 52 ≤ roundSig m e sticky) ∧
    (quantum m e ≤ e → roundSig m e sticky < 2 ^ 53) := by
  have hlt : m < 2 ^ (Nat.log2 m + 1) := Nat.lt_log2_self
  have hle : 2 ^ Nat.log2 m ≤ m := Nat.log2_self_le hm.ne'
  have hq := quantum_ge' m e
  unfold roundSig
  by_cases h : quantum m e ≤ e
  · rw [if_pos h]
    obtain ⟨j, hj⟩ := Int.eq_ofNat_of_zero_le (sub_nonneg.mpr h)
    rw [hj, show ((j : ℤ)).toNat = j by simp]
    have hup : m * 2 ^ j < 2 ^ 53 := calc
      m * 2 ^ j < 2 ^ (Nat.log2 m + 1) * 2 ^ j := Nat.mul_lt_mul_of_pos_right hlt (by positivity)
      _ = 2 ^ (Nat.log2 m + 1 + j) := (pow_add 2 _ _).symm
      _ ≤ 2 ^ 53 := Nat.pow_le_pow_right (by norm_num) (by omega)
    refine ⟨hup.le, fun h' => ?_, fun _ => hup⟩
    have := quantum_eq h'
    calc 2 ^ 52 = 2 ^ (Nat.log2 m + j) := by congr 1; omega
      _ = 2 ^ Nat.log2 m * 2 ^ j := pow_add 2 _ _
      _ ≤ m * 2 ^ j := Nat.mul_le_mul_right _ hle
  · rw [if_neg h]
    obtain ⟨k, hk⟩ := Int.eq_ofNat_of_zero_le (show 0 ≤ quantum m e - e by omega)
    rw [hk, show ((k : ℤ)).toNat = k by simp]
    obtain ⟨r1, r2⟩ := roundShift_le (m := m) (k := k) (sticky := sticky)
    have hup : m / 2 ^ k < 2 ^ 53 := by
      rw [Nat.div_lt_iff_lt_mul (by positivity), ← pow_add]
      exact lt_of_lt_of_le hlt (Nat.pow_le_pow_right (by norm_num) (by omega))
    refine ⟨by omega, fun h' => le_trans ?_ r2, fun h' => absurd h' h⟩
    have := quantum_eq h'
    rw [Nat.le_div_iff_mul_le (by positivity), ← pow_add]
    exact le_trans (Nat.pow_le_pow_right (by norm_num) (by omega)) hle

/-- Past exact representability: where the exact magnitude lies between two neighbouring multiples of the quantum,
and which of them the significand names. -/
theorem roundSig_cases {m : ℕ} {e : ℤ} {sticky : Bool} {δ : ℝ} (hm : 0 < m) (hδ0 : 0 ≤ δ) (hδ1 : δ < 1)
    (hst : sticky = true ↔ 0 < δ) (hq : e < quantum m e) :
    ∃ kept : ℕ, kept < 2 ^ 53 ∧ (-1074 < quantum m e → 2 ^ 52 ≤ kept) ∧
      (kept : ℝ) * 2 ^ quantum m e ≤ (m + δ) * 2 ^ e ∧ (m + δ) * 2 ^ e < (kept + 1) * 2 ^ quantum m e ∧
      (roundSig m e sticky = kept ∧
          (m + δ) * 2 ^ e - kept * 2 ^ quantum m e < (kept + 1) * 2 ^ quantum m e - (m + δ) * 2 ^ e ∨
        roundSig m e sticky = kept + 1 ∧
          (kept + 1) * 2 ^ quantum m e - (m + δ) * 2 ^ e < (m + δ) * 2 ^ e - kept * 2 ^ quantum m e ∨
        (roundSig m e sticky = kept ∨ roundSig m e sticky = kept + 1) ∧
          (m + δ) * 2 ^ e - kept * 2 ^ quantum m e = (kept + 1) * 2 ^ quantum m e - (m + δ) * 2 ^ e ∧
          roundSig m e sticky % 2 = 0) := by
  have hlt : m < 2 ^ (Nat.log2 m + 1) := Nat.lt_log2_self
  have hle : 2 ^ Nat.log2 m ≤ m := Nat.log2_self_le hm.ne'
  have hq' := quantum_ge' m e
  obtain ⟨k, hk⟩ := Int.eq_ofNat_of_zero_le (show 0 ≤ quantum m e - e by omega)
  have hQ : (2 : ℝ) ^ quantum m e = 2 ^ k * 2 ^ e := by
    rw [show quantum m e = (k : ℤ) + e by omega, zpow_add₀ (by norm_num), zpow_natCast]
  have he : (0 : ℝ) < 2 ^ e := by positivity
  have hsig : roundSig m e sticky = roundShift m k sticky := by
    rw [roundSig, if_neg (by omega), hk, show ((k : ℤ)).toNat = k by simp]
  rw [hsig, hQ]
  refine ⟨m / 2 ^ k, ?_, fun h' => ?_, ?_, ?_, ?_⟩
  · rw [Nat.div_lt_iff_lt_mul (by positivity), ← pow_add]
    exact lt_of_lt_of_le hlt (Nat.pow_le_pow_right (by norm_num) (by omega))
  · have := quantum_eq h'
    rw [Nat.le_div_iff_mul_le (by positivity), ← pow_add]
    exact le_trans (Nat.pow_le_pow_right (by norm_num) (by omega)) hle
  · have h := Nat.div_mul_le_self m (2 ^ k)
    have h' : ((m / 2 ^ k : ℕ) : ℝ) * 2 ^ k ≤ m := by exact_mod_cast h
    nlinarith
  · have h := Nat.lt_div_mul_add (a := m) (b := 2 ^ k) (by positivity)
    have h' : m + 1 ≤ (m / 2 ^ k + 1) * 2 ^ k := by rw [Nat.add_mul, one_mul]; omega
    have h'' : (m : ℝ) + 1 ≤ ((m / 2 ^ k : ℕ) + 1) * 2 ^ k := by exact_mod_cast h'
    nlinarith
  · rcases roundShift_cases (m := m) (k := k) (by omega) hδ0 hδ1 hst with ⟨h1, h2⟩ | ⟨h1, h2⟩ | ⟨h1, h2, h3⟩
    · exact Or.inl ⟨h1, by nlinarith⟩
    · exact Or.inr (Or.inl ⟨h1, by nlinarith⟩)
    · refine Or.inr (Or.inr ⟨h1, ?_, h3⟩)
      linear_combination (2 : ℝ) ^ e * h2

theorem overflowBound_eq : overflowBound = (2 ^ 53 - 1 / 2) * 2 ^ (971 : ℤ) := by
  have h : (2 : ℝ) ^ (971 : ℤ) = 2 * 2 ^ 970 := by
    rw [show (971 : ℤ) = ((971 : ℕ) : ℤ) by norm_num, zpow_natCast]
    exact pow_succ' (2 : ℝ) 970
  rw [overflowBound, h]
  generalize (2 : ℝ) ^ 970 = x
  ring

theorem pow_1023_le_overflowBound : (2 : ℝ) ^ (1023 : ℤ) ≤ overflowBound := by
  rw [overflowBound_eq, show (1023 : ℤ) = 52 + 971 by norm_num, zpow_add₀ (by norm_num)]
  exact mul_le_mul_of_nonneg_right (by norm_num) (by positivity)

theorem overflowBound_le_pow_1024 : overflowBound ≤ (2 : ℝ) ^ (1024 : ℤ) := by
  rw [overflowBound_eq, show (1024 : ℤ) = 53 + 971 by norm_num, zpow_add₀ (by norm_num)]
  exact mul_le_mul_of_nonneg_right (by norm_num) (by positivity)

/-- The magnitude bits overflow exactly from `overflowBound` on. -/
theorem magBits_lt_iff {m : ℕ} {e : ℤ} {sticky : Bool} {δ : ℝ} (hm : 0 < m) (hδ0 : 0 ≤ δ) (hδ1 : δ < 1)
    (hst : sticky = true ↔ 0 < δ) (hex : sticky = true → e < quantum m e) :
    magBits m e sticky < 2047 * 2 ^ 52 ↔ (m + δ) * 2 ^ e < overflowBound := by
  have hlt : m < 2 ^ (Nat.log2 m + 1) := Nat.lt_log2_self
  have hle : 2 ^ Nat.log2 m ≤ m := Nat.log2_self_le hm.ne'
  have hltR : (m : ℝ) + 1 ≤ 2 ^ (Nat.log2 m + 1) := by exact_mod_cast hlt
  have hleR : (2 : ℝ) ^ Nat.log2 m ≤ m := by exact_mod_cast hle
  have he : (0 : ℝ) < 2 ^ e := by positivity
  have hup : ((m : ℝ) + δ) * 2 ^ e < 2 ^ ((Nat.log2 m : ℤ) + 1 + e) := by
    rw [zpow_add₀ (by norm_num), show ((Nat.log2 m : ℤ) + 1) = ((Nat.log2 m + 1 : ℕ) : ℤ) by push_cast; ring,
      zpow_natCast]
    nlinarith
  have hlo : (2 : ℝ) ^ ((Nat.log2 m : ℤ) + e) ≤ ((m : ℝ) + δ) * 2 ^ e := by
    rw [zpow_add₀ (by norm_num), zpow_natCast]
    nlinarith
  obtain ⟨b1, b2, b3⟩ := roundSig_bounds hm e sticky
  have hq1 := quantum_ge m e
  have hq2 := quantum_ge' m e
  unfold magBits
  rcases lt_trichotomy (quantum m e) 971 with hQ | hQ | hQ
  · refine ⟨fun _ => lt_of_lt_of_le hup ?_, fun _ => by omega⟩
    calc (2 : ℝ) ^ ((Nat.log2 m : ℤ) + 1 + e) ≤ 2 ^ (1023 : ℤ) :=
          zpow_le_zpow_right₀ (by norm_num) (by omega)
      _ ≤ overflowBound := pow_1023_le_overflowBound
  · have hb : overflowBound = (2 ^ 53 - 1 / 2) * 2 ^ quantum m e := by
      rw [hQ]; exact overflowBound_eq
    have hu : (0 : ℝ) < 2 ^ quantum m e := by positivity
    have key : magBits m e sticky < 2047 * 2 ^ 52 ↔ roundSig m e sticky < 2 ^ 53 := by
      unfold magBits; rw [hQ]; norm_num; omega
    unfold magBits at key
    rw [key, hb]
    by_cases hexact : quantum m e ≤ e
    · have hδ : δ = 0 := by
        by_contra hne
        have := hex (hst.mpr (lt_of_le_of_ne hδ0 (Ne.symm hne)))
        omega
      refine ⟨fun h => ?_, fun _ => b3 hexact⟩
      rw [hδ, add_zero, ← roundSig_exact (sticky := sticky) hexact]
      have : ((roundSig m e sticky : ℕ) : ℝ) + 1 ≤ 2 ^ 53 := by exact_mod_cast h
      nlinarith
    · obtain ⟨kept, k1, -, k3, k4, hs⟩ := roundSig_cases hm hδ0 hδ1 hst (not_le.mp hexact)
      have k1R : (kept : ℝ) + 1 ≤ 2 ^ 53 := by exact_mod_cast k1
      rcases hs with ⟨h1, h2⟩ | ⟨h1, h2⟩ | ⟨h1, h2, h3⟩
      · exact ⟨fun _ => by nlinarith, fun _ => by omega⟩
      · rw [h1]
        refine ⟨fun h => ?_, fun h => ?_⟩
        · have : (kept : ℝ) + 2 ≤ 2 ^ 53 := by exact_mod_cast h
          nlinarith
        · by_contra hc
          have hk : (kept : ℝ) = 2 ^ 53 - 1 := by
            have : kept + 1 = 2 ^ 53 := by omega
            have : (kept : ℝ) + 1 = 2 ^ 53 := by exact_mod_cast this
            linarith
          rw [hk] at h2
          linarith
      · refine ⟨fun h => ?_, fun h => ?_⟩
        · have hk : kept + 2 ≤ 2 ^ 53 := by omega
          have : (kept : ℝ) + 2 ≤ 2 ^ 53 := by exact_mod_cast hk
          nlinarith
        · by_contra hc
          have hk : (kept : ℝ) = 2 ^ 53 - 1 := by
            have : kept + 1 = 2 ^ 53 := by omega
            have : (kept : ℝ) + 1 = 2 ^ 53 := by exact_mod_cast this
            linarith
          rw [hk] at h2
          linarith
  · have := quantum_eq (show -1074 < quantum m e by omega)
    refine ⟨fun h => ?_, fun h => absurd h (not_lt.mpr (le_trans ?_ hlo))⟩
    · have := b2 (by omega); omega
    · calc overflowBound ≤ (2 : ℝ) ^ (1024 : ℤ) := overflowBound_le_pow_1024
        _ ≤ 2 ^ ((Nat.log2 m : ℤ) + e) := zpow_le_zpow_right₀ (by norm_num) (by omega)

/-- A packed value that did not overflow: it is finite, its value is its significand in units of the quantum, and
its last fraction bit is the significand's. -/
theorem roundPack_finite {neg : Bool} {m : ℕ} {e : ℤ} {sticky : Bool} (hm : 0 < m)
    (h : magBits m e sticky < 2047 * 2 ^ 52) :
    isFinite (roundPack neg m e sticky) = true ∧
    floatValue (roundPack neg m e sticky) = signFactor neg * roundSig m e sticky * 2 ^ quantum m e ∧
    fracField (roundPack neg m e sticky) % 2 = roundSig m e sticky % 2 := by
  obtain ⟨b1, b2, -⟩ := roundSig_bounds hm e sticky
  have hq1 := quantum_ge m e
  rw [roundPack, if_neg hm.ne', if_pos h]
  unfold magBits at *
  obtain ⟨m', e', hu, hv⟩ := unpack_withSign neg b1 (fun h0 => b2 (by omega)) h
  refine ⟨isFinite_of_unpack hu, ?_, ?_⟩
  · rw [floatValue_of_unpack hu, mul_assoc, hv, mul_assoc]
    congr 3; omega
  · rw [fracField_withSign neg (by omega)]; omega

/-- `roundPack` rounds `±(m + δ) * 2^e` to nearest, ties to even, where `sticky` says whether the dropped part `δ`
is positive, and a dropped part comes with dropped bits. -/
theorem roundPack_correct (neg : Bool) {m : ℕ} {e : ℤ} {sticky : Bool} {δ : ℝ} (hm : 0 < m) (hδ0 : 0 ≤ δ)
    (hδ1 : δ < 1) (hst : sticky = true ↔ 0 < δ) (hex : sticky = true → e < quantum m e) :
    CorrectlyRounded ((signFactor neg : ℝ) * ((m + δ) * 2 ^ e)) (roundPack neg m e sticky) := by
  have hmR : (0 : ℝ) < m := by exact_mod_cast hm
  have hw : (0 : ℝ) < (m + δ) * 2 ^ e := by positivity
  have habs : |(signFactor neg : ℝ) * ((m + δ) * 2 ^ e)| = (m + δ) * 2 ^ e := by
    cases neg <;> simp [signFactor, abs_of_pos hw]
  have hsq : (signFactor neg : ℝ) * signFactor neg = 1 := by exact_mod_cast signFactor_sq neg
  have hsabs : ∀ x : ℝ, |(signFactor neg : ℝ) * x| = |x| := by
    intro x; cases neg <;> simp [signFactor]
  unfold CorrectlyRounded
  rw [habs]
  constructor
  · intro hlt
    have hmag := (magBits_lt_iff hm hδ0 hδ1 hst hex).mpr hlt
    obtain ⟨hfin, hval, hfrac⟩ := roundPack_finite (neg := neg) hm hmag
    refine ⟨hfin, fun z hz => ?_⟩
    obtain ⟨n, f, hn, hf, hzv⟩ := floatValue_form hz
    -- take the sign to the other value's side
    set n' : ℤ := (if neg then -1 else 1) * n with hn'
    have hn'abs : |n'| < 2 ^ 53 := by rw [hn']; cases neg <;> simpa using hn
    have hzv' : (floatValue z : ℝ) = (signFactor neg : ℝ) * ((n' : ℝ) * 2 ^ f) := by
      rw [hzv, hn']; cases neg <;> simp [signFactor]
    have hrv : (floatValue (roundPack neg m e sticky) : ℝ)
        = (signFactor neg : ℝ) * ((roundSig m e sticky : ℝ) * 2 ^ quantum m e) := by
      rw [hval]; push_cast; ring
    have hd1 : |(floatValue (roundPack neg m e sticky) : ℝ) - (signFactor neg : ℝ) * ((m + δ) * 2 ^ e)|
        = |(roundSig m e sticky : ℝ) * 2 ^ quantum m e - (m + δ) * 2 ^ e| := by
      rw [hrv, ← mul_sub, hsabs]
    have hd2 : |(floatValue z : ℝ) - (signFactor neg : ℝ) * ((m + δ) * 2 ^ e)|
        = |(n' : ℝ) * 2 ^ f - (m + δ) * 2 ^ e| := by
      rw [hzv', ← mul_sub, hsabs]
    rw [hd1, hd2, hfrac]
    have hne : floatValue z ≠ floatValue (roundPack neg m e sticky) →
        (n' : ℝ) * 2 ^ f ≠ (roundSig m e sticky : ℝ) * 2 ^ quantum m e := by
      intro h hc
      apply h
      have : (floatValue z : ℝ) = (floatValue (roundPack neg m e sticky) : ℝ) := by rw [hzv', hrv, hc]
      exact_mod_cast this
    by_cases hexact : quantum m e ≤ e
    · have hδ : δ = 0 := by
        by_contra h
        have := hex (hst.mpr (lt_of_le_of_ne hδ0 (Ne.symm h)))
        omega
      have hx : (roundSig m e sticky : ℝ) * 2 ^ quantum m e = (m + δ) * 2 ^ e := by
        rw [hδ, add_zero]; exact roundSig_exact hexact
      rw [hx, sub_self, abs_zero]
      refine ⟨abs_nonneg _, fun h h' => absurd ?_ (hne h')⟩
      rw [hx]; exact sub_eq_zero.mp (abs_eq_zero.mp h.symm)
    · obtain ⟨kept, -, k2, k3, k4, hs⟩ := roundSig_cases hm hδ0 hδ1 hst (not_le.mp hexact)
      obtain ⟨c1, c2⟩ := nearest_core hf hn'abs k2 k3 k4 hs
      exact ⟨c1, fun h h' => c2 h (hne h')⟩
  · intro hge
    have hmag : ¬ magBits m e sticky < 2047 * 2 ^ 52 := fun h =>
      absurd ((magBits_lt_iff hm hδ0 hδ1 hst hex).mp h) (not_lt.mpr hge)
    rw [roundPack, if_neg hm.ne', if_neg hmag]
    cases neg
    · have : ¬ (signFactor false : ℝ) * ((m + δ) * 2 ^ e) < 0 := by
        simp only [signFactor]; push_cast; simpa using hw.le
      simp [this]
    · have : (signFactor true : ℝ) * ((m + δ) * 2 ^ e) < 0 := by
        simp only [signFactor]; push_cast; simpa using hw
      simp [this]

end Sys2Proof.Machine
end

