-- ==== Sys2Proof/Laws/Order.lean ====
section
/-! SUPPORT. The comparisons of Machine/Flags.lean (spec/00_scope.md R9): they compare the values, and the classes
of a value exclude each other. -/

namespace Sys2Proof.Machine

/-! ## Classes -/

theorem isNaN_eq_false_of_isFinite {x : B64} (h : isFinite x = true) : isNaN x = false := by
  simp_all [isFinite, isNaN]

theorem isFinite_iff {x : B64} : isFinite x = true ↔ expField x ≠ 2047 := by simp [isFinite]

theorem isZero_iff {x : B64} : isZero x = true ↔ expField x = 0 ∧ fracField x = 0 := by simp [isZero]

theorem isFinite_of_isZero {x : B64} (h : isZero x = true) : isFinite x = true := by
  rw [isFinite_iff, (isZero_iff.mp h).1]; norm_num

theorem isZero_zero (neg : Bool) : isZero (zero neg) = true := by cases neg <;> decide

/-- A zero is one of the two. -/
theorem eq_zero_of_isZero {x : B64} (h : isZero x = true) : x = zero (signBit x) := by
  obtain ⟨h1, h2⟩ := isZero_iff.mp h
  conv_lhs => rw [eq_withSign x, h1, h2]
  rfl

theorem isFinite_zero (neg : Bool) : isFinite (zero neg) = true := isFinite_of_isZero (isZero_zero neg)

theorem signBit_zero (neg : Bool) : signBit (zero neg) = neg := by cases neg <;> decide

theorem isNaN_infinity (neg : Bool) : isNaN (infinity neg) = false := by cases neg <;> decide

/-- Whatever the free NaN is, it is a NaN. -/
theorem isNaN_nanResult (op : FloatOp) (x y : B64) : isNaN (nanResult op x y) = true := by
  unfold nanResult
  split
  · assumption
  · decide

/-! ## The order of the values -/

/-- The 63 magnitude bits as a number. -/
def magnitude (x : B64) : ℕ := expField x * 2 ^ 52 + fracField x

/-- The value of magnitude bits: a subnormal's unit times the fraction, or a normal significand. -/
def magValue (n : ℕ) : ℚ :=
  if n / 2 ^ 52 = 0 then (n % 2 ^ 52 : ℕ) * 2 ^ (-1074 : ℤ)
  else ((n % 2 ^ 52 : ℕ) + 2 ^ 52) * 2 ^ (((n / 2 ^ 52 : ℕ) : ℤ) - 1075)

theorem magnitude_div (x : B64) : magnitude x / 2 ^ 52 = expField x := by
  have := fracField_lt x; unfold magnitude; omega

theorem magnitude_mod (x : B64) : magnitude x % 2 ^ 52 = fracField x := by
  have := fracField_lt x; unfold magnitude; omega

theorem orderKey_eq (x : B64) : orderKey x = (if signBit x then -1 else 1) * (magnitude x : ℤ) := by
  have h : (x.extractLsb' 0 63).toNat = magnitude x := by
    have := x.isLt
    simp only [BitVec.extractLsb'_toNat, magnitude, expField_eq, fracField_eq]
    norm_num
    omega
  unfold orderKey
  rw [h]
  cases signBit x <;> simp

theorem floatValue_eq {x : B64} (h : isFinite x = true) :
    floatValue x = signFactor (signBit x) * magValue (magnitude x) := by
  rw [isFinite_iff] at h
  unfold floatValue unpack magValue
  rw [if_neg h, magnitude_div, magnitude_mod]
  by_cases h0 : expField x = 0
  · simp only [h0, if_true, signFactor]; ring
  · simp only [h0, if_false, signFactor]; push_cast; ring

theorem magValue_subnormal {F : ℕ} (hF : F < 2 ^ 52) : magValue F = F * 2 ^ (-1074 : ℤ) := by
  rw [magValue, if_pos (by omega), Nat.mod_eq_of_lt hF]

theorem magValue_normal {E F : ℕ} (hE : 0 < E) (hF : F < 2 ^ 52) :
    magValue (E * 2 ^ 52 + F) = (F + 2 ^ 52) * 2 ^ ((E : ℤ) - 1075) := by
  rw [magValue, if_neg (by omega), show (E * 2 ^ 52 + F) / 2 ^ 52 = E by omega,
    show (E * 2 ^ 52 + F) % 2 ^ 52 = F by omega]

theorem magValue_lt_succ (n : ℕ) : magValue n < magValue (n + 1) := by
  obtain ⟨E, F, hF, rfl⟩ : ∃ E F, F < 2 ^ 52 ∧ n = E * 2 ^ 52 + F :=
    ⟨n / 2 ^ 52, n % 2 ^ 52, Nat.mod_lt _ (by norm_num), by omega⟩
  have hstep : (2 : ℚ) ^ (((E + 1 : ℕ) : ℤ) - 1075) = 2 * 2 ^ ((E : ℤ) - 1075) := by
    rw [show ((E + 1 : ℕ) : ℤ) - 1075 = 1 + ((E : ℤ) - 1075) by push_cast; ring, zpow_add₀ (by norm_num),
      zpow_one]
  rcases Nat.eq_zero_or_pos E with rfl | hE
  · rw [Nat.zero_mul, Nat.zero_add, magValue_subnormal hF]
    by_cases hc : F + 1 < 2 ^ 52
    · rw [magValue_subnormal hc]
      exact mul_lt_mul_of_pos_right (by push_cast; linarith) (by positivity)
    · have hFq : F + 1 = 1 * 2 ^ 52 + 0 := by omega
      rw [hFq, magValue_normal (by norm_num) (by norm_num)]
      have hlt : (F : ℚ) < 0 + 2 ^ 52 := by rw [zero_add]; exact_mod_cast hF
      exact mul_lt_mul_of_pos_right (by exact_mod_cast hlt) (by positivity)
  · rw [magValue_normal hE hF]
    by_cases hc : F + 1 < 2 ^ 52
    · rw [Nat.add_assoc, magValue_normal hE hc]
      exact mul_lt_mul_of_pos_right (by push_cast; linarith) (by positivity)
    · have hFq : E * 2 ^ 52 + F + 1 = (E + 1) * 2 ^ 52 + 0 := by omega
      rw [hFq, magValue_normal (by omega) (by norm_num), hstep]
      have hlt : (F : ℚ) < 2 ^ 52 := by exact_mod_cast hF
      have hpos : (0 : ℚ) < 2 ^ ((E : ℤ) - 1075) := by positivity
      calc ((F : ℚ) + 2 ^ 52) * 2 ^ ((E : ℤ) - 1075)
          < (2 ^ 52 + 2 ^ 52) * 2 ^ ((E : ℤ) - 1075) := mul_lt_mul_of_pos_right (by linarith) hpos
        _ = (((0 : ℕ) : ℚ) + 2 ^ 52) * (2 * 2 ^ ((E : ℤ) - 1075)) := by rw [Nat.cast_zero]; ring

theorem magValue_strictMono : StrictMono magValue := strictMono_nat_of_lt_succ magValue_lt_succ

theorem magValue_zero : magValue 0 = 0 := by simp [magValue]

theorem magValue_nonneg (n : ℕ) : 0 ≤ magValue n := by
  rw [← magValue_zero]; exact magValue_strictMono.monotone (Nat.zero_le n)

/-- The order keys of finite values are in the order of the values. -/
theorem orderKey_lt_iff {x y : B64} (hx : isFinite x = true) (hy : isFinite y = true) :
    orderKey x < orderKey y ↔ floatValue x < floatValue y := by
  rw [floatValue_eq hx, floatValue_eq hy, orderKey_eq, orderKey_eq]
  have lt := fun a b => magValue_strictMono.lt_iff_lt (a := a) (b := b)
  have nn := magValue_nonneg
  have pos : ∀ n, 0 < n → 0 < magValue n := fun n h => by
    rw [← magValue_zero]; exact magValue_strictMono h
  have zer : ∀ n, magValue n = 0 → n = 0 := fun n h =>
    magValue_strictMono.injective (by rw [h, magValue_zero])
  generalize magnitude x = a
  generalize magnitude y = b
  cases signBit x <;> cases signBit y <;> simp only [signFactor, if_true, one_mul,
    neg_mul, Bool.false_eq_true, if_false]
  · rw [lt]; omega
  · constructor
    · intro h; omega
    · intro h; linarith [nn a, nn b]
  · constructor
    · intro h
      rcases Nat.eq_zero_or_pos a with rfl | ha
      · linarith [nn 0, magValue_zero, pos b (by omega)]
      · linarith [pos a ha, nn b]
    · intro h
      rcases Nat.eq_zero_or_pos a with rfl | ha
      · rcases Nat.eq_zero_or_pos b with rfl | hb
        · simp [magValue_zero] at h
        · omega
      · omega
  · rw [neg_lt_neg_iff (a := magValue a), lt]; omega

theorem flt_iff {x y : B64} (hx : isFinite x = true) (hy : isFinite y = true) :
    flt x y = true ↔ floatValue x < floatValue y := by
  simp [flt, isNaN_eq_false_of_isFinite hx, isNaN_eq_false_of_isFinite hy, orderKey_lt_iff hx hy]

theorem fle_iff {x y : B64} (hx : isFinite x = true) (hy : isFinite y = true) :
    fle x y = true ↔ floatValue x ≤ floatValue y := by
  simp [fle, isNaN_eq_false_of_isFinite hx, isNaN_eq_false_of_isFinite hy, ← not_lt, orderKey_lt_iff hy hx]

theorem feq_iff {x y : B64} (hx : isFinite x = true) (hy : isFinite y = true) :
    feq x y = true ↔ floatValue x = floatValue y := by
  simp only [feq, isNaN_eq_false_of_isFinite hx, isNaN_eq_false_of_isFinite hy, Bool.not_false,
    Bool.true_and, decide_eq_true_eq]
  rw [le_antisymm_iff, le_antisymm_iff, ← not_lt, ← not_lt, ← not_lt, ← not_lt, orderKey_lt_iff hx hy,
    orderKey_lt_iff hy hx]

/-- Finite values other than zero are the same bits if they are the same number. -/
theorem eq_of_floatValue_eq {x y : B64} (hx : isFinite x = true) (hy : isFinite y = true)
    (h : floatValue x = floatValue y) (h0 : floatValue x ≠ 0) : x = y := by
  have hkey : orderKey x = orderKey y := by
    have h1 := (orderKey_lt_iff hx hy).not.mpr (not_lt.mpr h.ge)
    have h2 := (orderKey_lt_iff hy hx).not.mpr (not_lt.mpr h.le)
    omega
  have hm0 : magnitude x ≠ 0 := by
    intro hm; apply h0; rw [floatValue_eq hx, hm, magValue_zero, mul_zero]
  rw [orderKey_eq, orderKey_eq] at hkey
  have hs : signBit x = signBit y ∧ magnitude x = magnitude y := by
    revert hkey
    cases signBit x <;> cases signBit y <;> simp <;> omega
  rw [eq_withSign x, eq_withSign y, hs.1]
  have := hs.2
  unfold magnitude at this
  rw [this]

end Sys2Proof.Machine
end

