-- ==== Sys2Proof/Laws/FloatOps.lean ====
section
/-! SUPPORT. What each binary64 operation does on finite operands: its exact value as it reaches `roundPack`, and
the identities that need no rounding (spec/00_scope.md R9). -/

namespace Sys2Proof.Machine

/-! ## Finite operands -/

theorem fadd_of_unpack {x y : B64} {a b : Bool} {m n : ℕ} {e f : ℤ} (hx : unpack x = .fin a m e)
    (hy : unpack y = .fin b n f) :
    fadd x y = if sumSig a m e b n f = 0 then zero (a && b)
      else roundPack (decide (sumSig a m e b n f < 0)) (sumSig a m e b n f).natAbs (min e f) false := by
  simp [fadd, addUnpacked, hx, hy]

theorem fsub_of_unpack {x y : B64} {a b : Bool} {m n : ℕ} {e f : ℤ} (hx : unpack x = .fin a m e)
    (hy : unpack y = .fin b n f) :
    fsub x y = if sumSig a m e (!b) n f = 0 then zero (a && !b)
      else roundPack (decide (sumSig a m e (!b) n f < 0)) (sumSig a m e (!b) n f).natAbs (min e f) false := by
  simp [fsub, addUnpacked, Unpacked.neg, hx, hy]

theorem fmul_of_unpack {x y : B64} {a b : Bool} {m n : ℕ} {e f : ℤ} (hx : unpack x = .fin a m e)
    (hy : unpack y = .fin b n f) : fmul x y = roundPack (a ^^ b) (m * n) (e + f) false := by
  simp [fmul, hx, hy]

theorem fdiv_of_unpack {x y : B64} {a b : Bool} {m n : ℕ} {e f : ℤ} (hx : unpack x = .fin a m e)
    (hy : unpack y = .fin b n f) (hn : n ≠ 0) :
    fdiv x y = roundPack (a ^^ b) (m * 2 ^ 110 / n) (e - f - 110) (decide (m * 2 ^ 110 % n ≠ 0)) := by
  simp [fdiv, hx, hy, hn]

theorem fsqrt_of_unpack {x : B64} {m : ℕ} {e : ℤ} (hx : unpack x = .fin false m e) (hm : m ≠ 0) :
    fsqrt x = roundPack false (isqrt (radicand m e)) (e / 2 - 60)
      (decide (isqrt (radicand m e) * isqrt (radicand m e) ≠ radicand m e)) := by
  simp [fsqrt, hx, hm]

theorem signFactor_xor (a b : Bool) : signFactor (a ^^ b) = signFactor a * signFactor b := by
  cases a <;> cases b <;> norm_num [signFactor]

theorem signFactor_not (a : Bool) : signFactor (!a) = -signFactor a := by
  cases a <;> norm_num [signFactor]

theorem signedSig_cast (a : Bool) (m : ℕ) : ((signedSig a m : ℤ) : ℚ) = signFactor a * m := by
  cases a <;> simp [signedSig, signFactor]

/-- The aligned sum is the exact sum. -/
theorem sumSig_value (a : Bool) (m : ℕ) (e : ℤ) (b : Bool) (n : ℕ) (f : ℤ) :
    ((sumSig a m e b n f : ℤ) : ℚ) * 2 ^ min e f = signFactor a * m * 2 ^ e + signFactor b * n * 2 ^ f := by
  have h : ∀ g : ℤ, min e f ≤ g → (2 : ℚ) ^ (g - min e f).toNat * 2 ^ min e f = 2 ^ g := by
    intro g hg
    rw [← zpow_natCast, ← zpow_add₀ (by norm_num)]
    congr 1; omega
  unfold sumSig
  push_cast
  rw [signedSig_cast, signedSig_cast]
  linear_combination (signFactor a * m) * h e (min_le_left _ _) + (signFactor b * n) * h f (min_le_right _ _)

/-- An integer with its sign taken apart. -/
theorem signFactor_natAbs (s : ℤ) : signFactor (decide (s < 0)) * (s.natAbs : ℕ) = s := by
  rcases lt_or_ge s 0 with h | h
  · have : ((s.natAbs : ℕ) : ℤ) = -s := by omega
    have : ((s.natAbs : ℕ) : ℚ) = -s := by rw [← Int.cast_natCast, this, Int.cast_neg]
    rw [this]; simp [signFactor, h]
  · have : ((s.natAbs : ℕ) : ℤ) = s := by omega
    have : ((s.natAbs : ℕ) : ℚ) = s := by rw [← Int.cast_natCast, this]
    rw [this]; simp [signFactor, not_lt.mpr h]

/-! ## Values that are representable need no rounding -/

/-- A finite value lies below the overflow bound. -/
theorem abs_floatValue_lt {x : B64} (hx : isFinite x = true) : |(floatValue x : ℝ)| < overflowBound := by
  obtain ⟨mx, ex, hu, hmx, -⟩ := unpack_finite hx
  have hex2 : ex ≤ 971 := by
    unfold unpack at hu
    rw [isFinite_iff] at hx
    have := expField_lt x
    rw [if_neg hx] at hu
    split at hu <;> simp at hu <;> omega
  have h1 : (mx : ℝ) + 1 ≤ 2 ^ 53 := by exact_mod_cast hmx
  have h2 : (2 : ℝ) ^ ex ≤ 2 ^ (971 : ℤ) := zpow_le_zpow_right₀ (by norm_num) hex2
  have h3 : |((signFactor (signBit x) * mx * 2 ^ ex : ℚ) : ℝ)| = mx * 2 ^ ex := by
    have hp : (0 : ℝ) ≤ mx * 2 ^ ex := by positivity
    cases signBit x <;> push_cast [signFactor] <;> simp
  rw [floatValue_of_unpack hu, h3, overflowBound_eq]
  calc (mx : ℝ) * 2 ^ ex ≤ (2 ^ 53 - 1) * 2 ^ (971 : ℤ) :=
        mul_le_mul (by linarith) h2 (by positivity) (by norm_num)
    _ < (2 ^ 53 - 1 / 2) * 2 ^ (971 : ℤ) := mul_lt_mul_of_pos_right (by norm_num) (by positivity)

theorem roundPack_eq_of_value {x : B64} (hx : isFinite x = true) (h0 : floatValue x ≠ 0) {a : Bool} {m : ℕ}
    {e : ℤ} (h : signFactor a * m * 2 ^ e = floatValue x) : roundPack a m e false = x := by
  have hm : 0 < m := by
    rcases Nat.eq_zero_or_pos m with rfl | h'
    · simp at h; exact absurd h.symm h0
    · exact h'
  have hc := roundPack_correct a hm (e := e) (sticky := false) (δ := 0) le_rfl (by norm_num) (by simp) (by simp)
  have hv : (signFactor a : ℝ) * ((m + 0) * 2 ^ e) = (floatValue x : ℝ) := by
    rw [← h]; push_cast; ring
  rw [hv] at hc
  obtain ⟨hfin, hnear⟩ := hc.1 (abs_floatValue_lt hx)
  have hd := (hnear x hx).1
  rw [sub_self, abs_zero] at hd
  have heq : (floatValue (roundPack a m e false) : ℝ) = floatValue x :=
    sub_eq_zero.mp (abs_eq_zero.mp (le_antisymm hd (abs_nonneg _)))
  have heq' : floatValue (roundPack a m e false) = floatValue x := by exact_mod_cast heq
  exact eq_of_floatValue_eq hfin hx heq' (by rw [heq']; exact h0)

/-! ## Zeros, ones, and the unit interval -/

theorem unpack_zero (neg : Bool) : unpack (zero neg) = .fin neg 0 (-1074) := by cases neg <;> decide

theorem unpack_of_isZero {x : B64} (h : isZero x = true) : unpack x = .fin (signBit x) 0 (-1074) := by
  conv_lhs => rw [eq_zero_of_isZero h]
  exact unpack_zero _

theorem unpack_one : unpack one = .fin false (2 ^ 52) (-52) := by decide +kernel

theorem isFinite_one : isFinite one = true := isFinite_of_unpack unpack_one

theorem floatValue_one : floatValue one = 1 := by
  rw [floatValue_of_unpack unpack_one]; norm_num [signFactor]

theorem floatValue_eq_zero_iff {x : B64} (hx : isFinite x = true) : floatValue x = 0 ↔ isZero x = true := by
  rw [floatValue_eq hx, isZero_iff]
  have h1 : signFactor (signBit x) ≠ 0 := by cases signBit x <;> norm_num [signFactor]
  have h2 : magValue (magnitude x) = 0 ↔ magnitude x = 0 :=
    ⟨fun h => magValue_strictMono.injective (by rw [h, magValue_zero]), fun h => by rw [h, magValue_zero]⟩
  rw [mul_eq_zero, or_iff_right h1, h2]
  unfold magnitude; omega

theorem floatValue_of_isZero {x : B64} (h : isZero x = true) : floatValue x = 0 :=
  (floatValue_eq_zero_iff (isFinite_of_isZero h)).mpr h

theorem roundPack_zero (neg : Bool) (e : ℤ) (sticky : Bool) : roundPack neg 0 e sticky = zero neg := by
  simp [roundPack]

/-- `fl(x * 1.0)` is `x`. -/
theorem fmul_one {x : B64} (hx : isFinite x = true) : fmul x one = x := by
  obtain ⟨m, e, hu, -, -⟩ := unpack_finite hx
  rw [fmul_of_unpack hu unpack_one, Bool.xor_false]
  by_cases h0 : isZero x = true
  · have := unpack_of_isZero h0
    rw [hu, Unpacked.fin.injEq] at this
    obtain ⟨-, rfl, -⟩ := this
    rw [Nat.zero_mul, roundPack_zero]; exact (eq_zero_of_isZero h0).symm
  · refine roundPack_eq_of_value hx (fun h => h0 ((floatValue_eq_zero_iff hx).mp h)) ?_
    rw [floatValue_of_unpack hu, show e + -52 = e - 52 by ring, zpow_sub₀ (by norm_num)]
    push_cast; field_simp

theorem fmul_comm_of_finite {x y : B64} (hx : isFinite x = true) (hy : isFinite y = true) :
    fmul x y = fmul y x := by
  obtain ⟨m, e, hu, -, -⟩ := unpack_finite hx
  obtain ⟨n, f, hv, -, -⟩ := unpack_finite hy
  rw [fmul_of_unpack hu hv, fmul_of_unpack hv hu, Bool.xor_comm, Nat.mul_comm, add_comm]

/-- `fl(1.0 * x)` is `x`. -/
theorem one_fmul {x : B64} (hx : isFinite x = true) : fmul one x = x := by
  rw [fmul_comm_of_finite isFinite_one hx, fmul_one hx]

/-- A zero times a finite value is the zero of the product's sign. -/
theorem fmul_zero_left {x y : B64} (hx : isZero x = true) (hy : isFinite y = true) :
    fmul x y = zero (signBit x ^^ signBit y) := by
  obtain ⟨n, f, hv, -, -⟩ := unpack_finite hy
  rw [fmul_of_unpack (unpack_of_isZero hx) hv, Nat.zero_mul, roundPack_zero]

theorem fmul_zero_right {x y : B64} (hx : isFinite x = true) (hy : isZero y = true) :
    fmul x y = zero (signBit x ^^ signBit y) := by
  obtain ⟨n, f, hv, -, -⟩ := unpack_finite hx
  rw [fmul_of_unpack hv (unpack_of_isZero hy), Nat.mul_zero, roundPack_zero]

/-- The rounded value of an exact integer multiple of a power of two that is a finite value's number. -/
theorem roundPack_sum_eq {x : B64} (hx : isFinite x = true) (h0 : floatValue x ≠ 0) {s : ℤ} {g : ℤ}
    (h : (s : ℚ) * 2 ^ g = floatValue x) :
    s ≠ 0 ∧ roundPack (decide (s < 0)) s.natAbs g false = x := by
  refine ⟨fun hs => h0 (by rw [← h, hs]; simp), roundPack_eq_of_value hx h0 ?_⟩
  rw [signFactor_natAbs, h]

/-- `fl(x + 0)` is `x`, for any zero and any finite `x` but a zero. -/
theorem fadd_zero_right {x y : B64} (hx : isFinite x = true) (h0 : isZero x = false) (hy : isZero y = true) :
    fadd x y = x := by
  obtain ⟨m, e, hu, -, -⟩ := unpack_finite hx
  have hv := sumSig_value (signBit x) m e (signBit y) 0 (-1074)
  rw [← floatValue_of_unpack hu] at hv
  simp only [Nat.cast_zero, mul_zero, zero_mul, add_zero] at hv
  have hne : floatValue x ≠ 0 := fun h => by
    rw [(floatValue_eq_zero_iff hx).mp h] at h0; exact absurd h0 (by simp)
  obtain ⟨h1, h2⟩ := roundPack_sum_eq hx hne hv
  rw [fadd_of_unpack hu (unpack_of_isZero hy), if_neg h1, h2]

theorem fadd_zero_left {x y : B64} (hx : isZero x = true) (hy : isFinite y = true) (h0 : isZero y = false) :
    fadd x y = y := by
  obtain ⟨n, f, hu, -, -⟩ := unpack_finite hy
  have hv := sumSig_value (signBit x) 0 (-1074) (signBit y) n f
  rw [← floatValue_of_unpack hu] at hv
  simp only [Nat.cast_zero, mul_zero, zero_mul, zero_add] at hv
  have hne : floatValue y ≠ 0 := fun h => by
    rw [(floatValue_eq_zero_iff hy).mp h] at h0; exact absurd h0 (by simp)
  obtain ⟨h1, h2⟩ := roundPack_sum_eq hy hne hv
  rw [fadd_of_unpack (unpack_of_isZero hx) hu, if_neg h1, h2]

/-- The sum of two zeros: +0.0 unless both are negative. -/
theorem fadd_zeros {x y : B64} (hx : isZero x = true) (hy : isZero y = true) :
    fadd x y = zero (signBit x && signBit y) := by
  rw [fadd_of_unpack (unpack_of_isZero hx) (unpack_of_isZero hy), if_pos]
  simp [sumSig, signedSig]

/-! ## Signs and infinities -/

/-- A rounded value has the sign it is given, whether it is a zero, a number or an infinity. -/
theorem signBit_roundPack (neg : Bool) (m : ℕ) (e : ℤ) (sticky : Bool) :
    signBit (roundPack neg m e sticky) = neg := by
  unfold roundPack
  split
  · exact signBit_zero neg
  · split
    · exact signBit_withSign neg (by omega)
    · exact signBit_withSign neg (by norm_num)

theorem unpack_infinity (neg : Bool) : unpack (infinity neg) = .inf neg := by cases neg <;> decide

theorem unpack_of_isNaN {x : B64} (h : isNaN x = true) : unpack x = .nan := by
  simp only [isNaN, Bool.and_eq_true, beq_iff_eq, bne_iff_ne] at h
  simp [unpack, h]

/-- A value that is no NaN and not finite is one of the two infinities. -/
theorem eq_infinity {x : B64} (hn : isNaN x = false) (hf : isFinite x = false) : x = infinity (signBit x) := by
  have he : expField x = 2047 := by simpa [isFinite] using hf
  have h0 : fracField x = 0 := by simpa [isNaN, he] using hn
  conv_lhs => rw [eq_withSign x, he, h0]
  rfl

end Sys2Proof.Machine
end

