-- ==== Sys2Proof/Laws/Numerics.lean ====
section
/-! SUPPORT. What may be assumed of the machine's free functions (spec/42_encoder.md R107), one lemma for each. -/

namespace Sys2Proof.Machine

theorem isFinite_posZero : isFinite posZero = true := isFinite_zero false

theorem isZero_posZero : isZero posZero = true := isZero_zero false

theorem toF_zero : toF 0 = posZero := by decide

/-! ## PI64 and K_2_SQRT3 -/

/-- Whatever is given, the parameter is legal if its default is. -/
theorem finitePositive_finitePositiveOr {dflt : B64} (h : finitePositive dflt = true) (arg : Option B64) :
    finitePositive (finitePositiveOr dflt arg) = true := by
  unfold finitePositiveOr
  split
  · split <;> assumption
  · exact h

/-- Every legal value can be the machine's: a legal value given is the parameter's value, whatever the default. -/
theorem finitePositiveOr_some {dflt v : B64} (h : finitePositive v = true) :
    finitePositiveOr dflt (some v) = v := if_pos h

theorem finitePositiveOr_none (dflt : B64) : finitePositiveOr dflt none = dflt := rfl

theorem finitePositive_numPi64 : finitePositive numPi64 = true :=
  finitePositive_finitePositiveOr (by decide +kernel) _

theorem finitePositive_numK2Sqrt3 : finitePositive numK2Sqrt3 = true :=
  finitePositive_finitePositiveOr (by decide +kernel) _

/-- A finite positive value is a finite value above zero. -/
theorem finitePositive_iff {x : B64} : finitePositive x = true ↔ isFinite x = true ∧ 0 < floatValue x := by
  unfold finitePositive fgt
  rw [Bool.and_eq_true]
  refine and_congr_right fun h => ?_
  rw [flt_iff isFinite_posZero h, floatValue_of_isZero isZero_posZero]

/-- A finite positive value is no zero. -/
theorem isZero_of_finitePositive {x : B64} (h : finitePositive x = true) : isZero x = false := by
  rw [finitePositive_iff] at h
  by_contra hz
  exact h.2.ne' ((floatValue_eq_zero_iff h.1).mpr (by simpa using hz))

/-- A finite positive value has the sign 0. -/
theorem signBit_of_finitePositive {x : B64} (h : finitePositive x = true) : signBit x = false := by
  rw [finitePositive_iff] at h
  by_contra hs
  have hv := floatValue_eq h.1
  rw [show signBit x = true by simpa using hs] at hv
  have hm := magValue_nonneg (magnitude x)
  simp only [signFactor, if_true] at hv
  linarith [h.2]

/-- A finite positive value as a divisor or a factor: its significand is not 0. -/
theorem unpack_of_finitePositive {x : B64} (h : finitePositive x = true) :
    ∃ m e, unpack x = .fin false m e ∧ m ≠ 0 := by
  obtain ⟨m, e, hu, -, -⟩ := unpack_finite (finitePositive_iff.mp h).1
  rw [signBit_of_finitePositive h] at hu
  refine ⟨m, e, hu, ?_⟩
  rintro rfl
  have hv := (finitePositive_iff.mp h).2
  rw [floatValue_of_unpack hu] at hv
  simp at hv

theorem signBit_fneg (x : B64) : signBit (fneg x) = !signBit x := by
  unfold signBit fneg
  rw [BitVec.getLsbD_xor]
  simp (decide := true)

theorem isFinite_fneg (x : B64) : isFinite (fneg x) = isFinite x := by
  have h : expField (fneg x) = expField x := by
    unfold expField fneg
    congr 1
    ext i hi
    simp only [BitVec.getElem_extractLsb', BitVec.getLsbD_xor]
    interval_cases i <;> simp (decide := true)
  simp only [isFinite, h]

/-- Zero lies in [-p, p] for a finite positive p. -/
theorem zero_within_finitePositive {p : B64} (h : finitePositive p = true) :
    fle (fneg p) posZero = true ∧ fle posZero p = true := by
  have hf := (finitePositive_iff.mp h).1
  have hn : isFinite (fneg p) = true := by rw [isFinite_fneg, hf]
  rw [fle_iff hn isFinite_posZero, fle_iff isFinite_posZero hf, floatValue_of_isZero isZero_posZero]
  refine ⟨?_, (finitePositive_iff.mp h).2.le⟩
  rw [floatValue_eq hn, signBit_fneg, signBit_of_finitePositive h]
  simpa [signFactor] using magValue_nonneg (magnitude (fneg p))

/-! ## The functions -/

theorem numAtan2_admits (y x : B64) : atan2Admits numPi64 y x (numAtan2 y x) = true := by
  unfold numAtan2
  split
  · assumption
  · simp [atan2Admits, isFinite_posZero, zero_within_finitePositive finitePositive_numPi64]

theorem numSin_admits (x : B64) : sinAdmits x (numSin x) = true := by
  unfold numSin
  split
  · assumption
  · have h : inUnit posZero = true := by decide +kernel
    simp [sinAdmits, h]

theorem numCos_admits (x : B64) : cosAdmits x (numCos x) = true := by
  unfold numCos
  split
  · assumption
  · have h : inUnit one = true := by decide +kernel
    simp [cosAdmits, h]

/-- A value in [-1.0, 1.0] is finite. -/
theorem isFinite_of_inUnit {v : B64} (h : inUnit v = true) : isFinite v = true := by
  have hone : orderKey one = 1023 * 2 ^ 52 := by decide +kernel
  have hneg : orderKey (fneg one) = -(1023 * 2 ^ 52) := by decide +kernel
  simp only [inUnit, fle, Bool.and_eq_true, decide_eq_true_eq, hone, hneg, orderKey_eq] at h
  have hf := fracField_lt v
  rw [isFinite_iff]
  intro he
  unfold magnitude at h
  rw [he] at h
  cases hs : signBit v <;> simp only [hs] at h <;> norm_num at h <;> omega

theorem isFinite_numSin (x : B64) : isFinite (numSin x) = true := by
  have h := numSin_admits x
  simp only [sinAdmits, Bool.and_eq_true] at h
  exact isFinite_of_inUnit h.1

theorem isFinite_numCos (x : B64) : isFinite (numCos x) = true := by
  have h := numCos_admits x
  simp only [cosAdmits, Bool.and_eq_true] at h
  exact isFinite_of_inUnit h.1

theorem numSin_zero : numSin posZero = posZero := by
  have h := numSin_admits posZero
  simp [sinAdmits] at h
  exact h.2

theorem numCos_zero : numCos posZero = one := by
  have h := numCos_admits posZero
  simp [cosAdmits] at h
  exact h.2

theorem isFinite_numAtan2 {y x : B64} (hy : isFinite y = true) (hx : isFinite x = true) :
    isFinite (numAtan2 y x) = true := by
  have h := numAtan2_admits y x
  simp [atan2Admits, hy, hx] at h
  exact h.1

end Sys2Proof.Machine
end

