-- ==== Sys2Proof/Laws/Tick.lean ====
section
/-! SUPPORT. The parts of TICK (spec/42_encoder.md): what its checks leave, what a comparator answers, and that an
operation on finite values never gives a NaN. -/

namespace Sys2Proof.Machine

/-- Operands that pass the checks are finite. -/
theorem tickValid_finite {p : TickIn} (h : tickValid p = true) :
    isFinite p.alpha = true ∧ isFinite p.beta = true ∧ isFinite p.busVoltage = true ∧
      isFinite p.carrierPeriod = true ∧ isFinite p.secondaryInput = true ∧ isFinite p.dt = true := by
  simp only [tickValid, tickFinite, Bool.and_eq_true] at h
  tauto

theorem comparator_cases (busVoltage c0 x : B64) :
    comparator busVoltage c0 x = busVoltage ∨ comparator busVoltage c0 x = posZero := by
  unfold comparator
  split <;> simp

/-- A comparator answers a level. -/
theorem levelOk_comparator {p : TickIn} (h : tickValid p = true) (c0 x : B64) :
    levelOk (comparator p.busVoltage c0 x) = true := by
  rcases comparator_cases p.busVoltage c0 x with e | e
  · rw [e]
    simp only [tickValid, Bool.and_eq_true] at h
    unfold levelOk
    rw [(tickValid_finite (p := p) (by simp [tickValid, h])).2.2.1, h.2]
    rfl
  · rw [e]; decide +kernel

/-- The port of a sector carries 1 to 6. -/
theorem sectorCode_range (n : Sector) : 1 ≤ (sectorCode n).toNat ∧ (sectorCode n).toNat ≤ 6 := by
  cases n <;> decide

/-- A rounded value is never a NaN. -/
theorem isNaN_roundPack (neg : Bool) (m : ℕ) (e : ℤ) (sticky : Bool) :
    isNaN (roundPack neg m e sticky) = false := by
  unfold roundPack
  split
  · cases neg <;> decide
  · split
    · have h : expField (withSign neg (magBits m e sticky)) ≠ 2047 := by
        rw [expField_withSign neg (by omega)]; omega
      simp [isNaN, h]
    · exact isNaN_infinity neg

end Sys2Proof.Machine
end

