-- ==== Sys2Proof/Machine/Program.lean ====
section
/-! DEFINITION. Programs of the spec's own syntax (spec/30_encoding.md R55, R56) as syntax trees, and the host
that runs one: "a finite sequence of commands that the host issues in order" (spec/10_state.md R32).

Machine/Text.lean reads a program's characters into a tree. -/

namespace Sys2Proof.Machine

/-- An operand of a line (R55): a literal, a name of an earlier line's output, or `toF(name)` for an int16
output. -/
inductive Arg where
  | int (v : Int)
  | real (v : B64)
  | name (n : String)
  | toF (n : String)
deriving DecidableEq, Repr

/-- One line (R55). `outs` are the names after `->`, for the outputs in R53's order. -/
inductive Line where
  | command (c : Command) (args : List Arg) (outs : List String)
  /-- The pseudo-instruction (R56). -/
  | pipe (args : List Arg) (outs : List String)
  /-- The host's reset action (R55). -/
  | reset
deriving DecidableEq, Repr

/-- The value on a port, by the port's type (spec/30_encoding.md R54). -/
inductive PortValue where
  | int16 (v : I16)
  | real (v : B64)
  | code (v : SectorCode)
deriving DecidableEq, Repr

/-- The names the host has bound so far, the latest first. -/
abbrev Env := List (String × PortValue)

/-- The value a name stands for: its latest binding. -/
def lookupName (env : Env) (n : String) : Option PortValue :=
  match env with
  | [] => none
  | (m, v) :: rest => if m = n then some v else lookupName rest n

/-- A literal integer on an int16 port: "each component lies in [-32768, 32767]" (R53). -/
def int16Literal (v : Int) : Option I16 :=
  if -32768 ≤ v ∧ v ≤ 32767 then some (BitVec.ofInt 16 v) else none

/-- An operand for an int16 port. -/
def argInt16 (env : Env) : Arg → Option I16
  | .int v => int16Literal v
  | .name n =>
    match lookupName env n with
    | some (.int16 v) => some v
    | _ => none
  | _ => none

/-- An operand for a binary64 port; `toF(name)` is exact on an int16 output (R53). -/
def argReal (env : Env) : Arg → Option B64
  | .real v => some v
  | .name n =>
    match lookupName env n with
    | some (.real v) => some v
    | _ => none
  | .toF n =>
    match lookupName env n with
    | some (.int16 v) => some (Sys2Proof.Machine.toF (readInt16 v))
    | _ => none
  | .int _ => none

/-- The command a line stands for, its operands in R53's order; none for a line that is no line of R55's syntax
(a wrong number of operands, an unbound name, a value of another port's type). -/
def assemble (env : Env) (c : Command) (args : List Arg) : Option Instr :=
  match c, args with
  | .limit, [q, d] => do return .limit (← argInt16 env q) (← argInt16 env d)
  | .rotate, [q, d, t] => do return .rotate (← argReal env q) (← argReal env d) (← argReal env t)
  | .tick, [a, b, v, ts, x, dt] => do
    return .tick ⟨← argReal env a, ← argReal env b, ← argReal env v, ← argReal env ts, ← argReal env x,
      ← argReal env dt⟩
  | _, _ => none

/-- The driven output ports in R53's order. -/
def portValues : OutputPorts → List PortValue
  | .undriven => []
  | .limit o => [.int16 o.q_out, .int16 o.d_out]
  | .rotate o => [.real o.alpha, .real o.beta]
  | .tick o => [.real o.U, .real o.V, .real o.W, .real o.angle, .code o.sector, .real o.carrierValue,
      .real o.T1, .real o.T2, .real o.Tz]

/-- Bind a line's names to its outputs, the first name to the first output of R53's order, and so on.

DESIGN CHOICE (log entry 17): R55 does not say what a line means whose list of names is longer or shorter than the
command's outputs. Surplus names are bound to nothing, and outputs without a name are left unnamed. A line that
stopped has no outputs, so it binds no name. -/
def bindNames (outs : List String) (ports : OutputPorts) (env : Env) : Env :=
  (outs.zip (portValues ports)).reverse ++ env

/-- PIPE's three lines (R56). The intermediate names are the expansion's own: no name of a program begins with a
space, so they capture none. -/
def pipeLines (args : List Arg) (outs : List String) : Option (List Line) :=
  match args with
  | [q, d, theta, v, ts, x, dt] =>
    some [.command .limit [q, d] [" q1", " d1"],
      .command .rotate [.toF " q1", .toF " d1", theta] [" a1", " b1"],
      .command .tick [.name " a1", .name " b1", v, ts, x, dt] outs]
  | _ => none

/-- A program with every PIPE expanded; none for a PIPE with a wrong number of operands. -/
def expandPipes : List Line → Option (List Line)
  | [] => some []
  | .pipe args outs :: rest => do return (← pipeLines args outs) ++ (← expandPipes rest)
  | .command c args outs :: rest => do return .command c args outs :: (← expandPipes rest)
  | .reset :: rest => do return .reset :: (← expandPipes rest)

/-- The host's action for a line without PIPE. -/
def lineAction (env : Env) : Line → Option HostAction
  | .command c args _ => (assemble env c args).map fun i => .command (encode i)
  | .reset => some .reset
  | .pipe _ _ => none

/-- The names a line binds once it is done. -/
def lineNames : Line → List String
  | .command _ _ outs => outs
  | .pipe _ outs => outs
  | .reset => []

/-- Take a line's action as the host's next one, record the stop (if any), and name the outputs. -/
def takeLine (l : Line) (env : Env) (s : State) : Option (Env × State) := do
  let a ← lineAction env l
  let t := advance { s with host := a :: s.host }
  return (bindNames (lineNames l) t.out env, t)

/-- Run one line. After a fault or a refusal no command is issued: "If any of the three commands faults, the later
ones are not issued" (R56), and none has a step until a reset (spec/60_exceptions.md R124). -/
def runLine (l : Line) (env : Env) (s : State) : Option (Env × State) :=
  match l, barred s with
  | .reset, _ => takeLine .reset env s
  | l, none => takeLine l env s
  | _, some _ => some (env, s)

/-- Run lines in order. A line that is no line of the syntax ends the program without a result (log entry 17). -/
def runLines : List Line → Env → State → Option (Env × State)
  | [], env, s => some (env, s)
  | l :: rest, env, s =>
    match runLine l env s with
    | some (env', s') => runLines rest env' s'
    | none => none

/-- Run a program from a state (R55). -/
def runProgram (p : List Line) (s : State) : Option (Env × State) := do
  runLines (← expandPipes p) [] s

end Sys2Proof.Machine
end

