-- ==== Sys2Proof/Machine/Text.lean ====
section
/-! DEFINITION. Reading a program written in the spec's own syntax (spec/30_encoding.md R55) from its characters.

"One command per line: the mnemonic, then the input operands ..., separated by commas"; `;` starts a comment; a line
may end with `-> name, name, ...`; a line `RESET` is the host's reset. What R55 leaves open of the layout is log
entry 17. -/

namespace Sys2Proof.Machine

/-! ## Tokens -/

/-- A token of a line. -/
inductive Tok where
  | word (cs : List Char)
  | comma
  | arrow
  | lpar
  | rpar
deriving DecidableEq, Repr

/-- The characters of a line before its comment. -/
def beforeComment (cs : List Char) : List Char := cs.takeWhile fun c => c != ';'

/-- End the word read so far (its characters latest first), if there is one. -/
def endWord (acc : List Char) (ts : List Tok) : List Tok :=
  match acc with
  | [] => ts
  | c :: cs => .word (c :: cs).reverse :: ts

/-- The tokens of a line. `acc` is the word read so far. DESIGN CHOICE (log entry 17): a blank, a tab and a carriage
return are blank space between words, and no other character is. -/
def tokens : List Char → List Char → List Tok
  | acc, [] => endWord acc []
  | acc, '-' :: '>' :: rest => endWord acc (.arrow :: tokens [] rest)
  | acc, c :: rest =>
    if c == ',' then endWord acc (.comma :: tokens [] rest)
    else if c == '(' then endWord acc (.lpar :: tokens [] rest)
    else if c == ')' then endWord acc (.rpar :: tokens [] rest)
    else if c == ' ' || c == '\t' || c == '\r' then endWord acc (tokens [] rest)
    else tokens (c :: acc) rest

/-! ## Numbers -/

/-- A digit's value, in base 10 or 16. -/
def digitValue (base : Nat) (c : Char) : Option Nat :=
  let v := if '0' ≤ c ∧ c ≤ '9' then c.toNat - '0'.toNat
    else if 'a' ≤ c ∧ c ≤ 'f' then c.toNat - 'a'.toNat + 10
    else if 'A' ≤ c ∧ c ≤ 'F' then c.toNat - 'A'.toNat + 10
    else base
  if v < base then some v else none

/-- The number that digits spell, after `n` for the digits before them. -/
def readDigits (base : Nat) : Nat → List Char → Option Nat
  | n, [] => some n
  | n, c :: cs =>
    match digitValue base c with
    | some v => readDigits base (n * base + v) cs
    | none => none

/-- One or more digits. -/
def readNat (base : Nat) (cs : List Char) : Option Nat :=
  match cs with
  | [] => none
  | c :: rest => readDigits base 0 (c :: rest)

/-- A minus sign, if there is one, and the rest. -/
def readSign : List Char → Bool × List Char
  | '-' :: cs => (true, cs)
  | cs => (false, cs)

/-- An exponent: digits after a sign, if any. -/
def readExponent (cs : List Char) : Option Int :=
  match cs with
  | '+' :: rest => (readNat 10 rest).map fun n => (n : Int)
  | '-' :: rest => (readNat 10 rest).map fun n => -(n : Int)
  | rest => (readNat 10 rest).map fun n => (n : Int)

/-- The characters before the first one of a kind, and those after it if there is one. -/
def cutAt (p : Char → Bool) : List Char → List Char × Option (List Char)
  | [] => ([], none)
  | c :: cs => if p c then ([], some cs) else (c :: (cutAt p cs).1, (cutAt p cs).2)

/-- The digits of a mantissa with an optional point, as one number, and how many of them stand after the point. -/
def readMantissa (base : Nat) (cs : List Char) : Option (Nat × Nat) :=
  match cutAt (· == '.') cs with
  | (whole, none) => (readNat base whole).map fun n => (n, 0)
  | (whole, some frac) => (readNat base (whole ++ frac)).map fun n => (n, frac.length)

/-- The binary64 nearest `(-1)^neg * n / d`, ties to even, for `d` not 0. The quotient keeps at least 63 bits, and
its rest only marks `sticky`. -/
def nearestRatio (neg : Bool) (n d : Nat) : B64 :=
  roundPack neg (n * 2 ^ (64 + Nat.log2 d) / d) (-(64 + Nat.log2 d : Nat))
    (decide (n * 2 ^ (64 + Nat.log2 d) % d ≠ 0))

/-- `(-1)^neg * n * 10^e` as the nearest binary64: R55 writes "the shortest decimal that reads back to the same
value". -/
def decimalValue (neg : Bool) (n : Nat) (e : Int) : B64 :=
  nearestRatio neg (n * 10 ^ e.toNat) (10 ^ (-e).toNat)

/-- An integer: decimal, or with a `0x` prefix. -/
def readInteger (cs : List Char) : Option Int :=
  let (neg, ds) := readSign cs
  let n := match ds with
    | '0' :: 'x' :: hs => readNat 16 hs
    | ds => readNat 10 ds
  n.map fun n => if neg then -(n : Int) else n

/-- A binary64: a decimal with a point or an exponent, or a C99 hexadecimal float, whose exponent is of 2 and must
be written. -/
def readReal (cs : List Char) : Option B64 :=
  let (neg, ds) := readSign cs
  match ds with
  | '0' :: 'x' :: hs =>
    match cutAt (fun c => c == 'p' || c == 'P') hs with
    | (m, some e) => do
      let (n, f) ← readMantissa 16 m
      let e ← readExponent e
      return roundPack neg n (e - 4 * (f : Int)) false
    | (_, none) => none
  | ds =>
    match cutAt (fun c => c == 'e' || c == 'E') ds with
    | (m, some e) => do
      let (n, f) ← readMantissa 10 m
      let e ← readExponent e
      return decimalValue neg n (e - (f : Int))
    | (m, none) =>
      if m.contains '.' then do
        let (n, f) ← readMantissa 10 m
        return decimalValue neg n (-(f : Int))
      else none

/-! ## Lines -/

def isLetter (c : Char) : Bool := decide ('a' ≤ c ∧ c ≤ 'z') || decide ('A' ≤ c ∧ c ≤ 'Z')

/-- A name: a letter, then letters, digits and underscores. -/
def readName (cs : List Char) : Option String :=
  match cs with
  | [] => none
  | c :: rest =>
    if isLetter c && rest.all (fun d => isLetter d || (digitValue 10 d).isSome || d == '_') then
      some (String.ofList (c :: rest))
    else none

/-- An operand that is one word: an integer, a binary64, or a name.

DESIGN CHOICE (log entry 17): R55 gives no spelling of an infinity or a NaN. `inf` and `NaN` are names like any other
here, and `-inf` is no operand. A number past the largest finite value reads as the infinity of its sign; no text is a
NaN. The syntax tree's `Arg.real` holds every binary64. -/
def readWordArg (cs : List Char) : Option Arg :=
  match readInteger cs with
  | some v => some (.int v)
  | none =>
    match readReal cs with
    | some v => some (.real v)
    | none => (readName cs).map .name

/-- Names separated by commas, to the end of the line. -/
def readNames : List Tok → Option (List String)
  | [.word w] => (readName w).map fun n => [n]
  | .word w :: .comma :: rest => do return (← readName w) :: (← readNames rest)
  | _ => none

/-- What follows an operand: the end, names after an arrow, or a comma (`none` inside) and more operands. -/
def readEnd : List Tok → Option (List String)
  | [] => some []
  | .arrow :: rest => readNames rest
  | _ => none

/-- Operands separated by commas, then the names of the outputs, if any. `toF` before a bracket is R55's
`toF(name)`. -/
def readArgs : List Tok → Option (List Arg × List String)
  | .word f :: .lpar :: .word w :: .rpar :: .comma :: rest =>
    if f = ['t', 'o', 'F'] then do
      let n ← readName w
      let (args, outs) ← readArgs rest
      return (.toF n :: args, outs)
    else none
  | .word f :: .lpar :: .word w :: .rpar :: rest =>
    if f = ['t', 'o', 'F'] then do return ([.toF (← readName w)], ← readEnd rest) else none
  | .word w :: .comma :: rest => do
    let a ← readWordArg w
    let (args, outs) ← readArgs rest
    return (a :: args, outs)
  | .word w :: rest => do return ([← readWordArg w], ← readEnd rest)
  | _ => none

/-- The mnemonics (spec/30_encoding.md R51, R56). -/
def commandOfMnemonic (cs : List Char) : Option Command :=
  if cs = ['L', 'I', 'M', 'I', 'T'] then some .limit
  else if cs = ['R', 'O', 'T', 'A', 'T', 'E'] then some .rotate
  else if cs = ['T', 'I', 'C', 'K'] then some .tick
  else none

/-- The lines that one line of text gives: none for a line with nothing but a comment; `none` for no line of the
syntax. -/
def readLine (cs : List Char) : Option (List Line) :=
  match tokens [] (beforeComment cs) with
  | [] => some []
  | [.word w] => if w = ['R', 'E', 'S', 'E', 'T'] then some [.reset] else none
  | .word w :: rest =>
    if w = ['P', 'I', 'P', 'E'] then do
      let (args, outs) ← readArgs rest
      return [.pipe args outs]
    else
      match commandOfMnemonic w with
      | some c => do
        let (args, outs) ← readArgs rest
        return [.command c args outs]
      | none => none
  | _ => none

/-- Lines of text one after another; `acc` is the line read so far, its characters latest first. -/
def readLines : List Char → List Char → Option (List Line)
  | acc, [] => readLine acc.reverse
  | acc, c :: rest =>
    if c == '\n' then do return (← readLine acc.reverse) ++ (← readLines [] rest)
    else readLines (c :: acc) rest

/-- A program from its text (R55). -/
def readProgram (cs : List Char) : Option (List Line) := readLines [] cs

end Sys2Proof.Machine
end

