-- ==== Sys2Proof/Tests/Slice0.lean ====
section
/-! SUPPORT. The model's own tests. Expected results are the spec's vectors (spec/95_test_vectors.md, cited as V-…) or
written out from the spec's encodings. A theorem named witness_<Name> shows states and operands that meet the
hypotheses of Obligations.<Name>, and where these are several ranges, one at an end of each. -/

namespace Sys2Proof.Tests

open Sys2Proof.Machine

/-! ## The test configurations (spec/95_test_vectors.md, TC-A to TC-X) -/

/-- `TT`, row by row as the spec prints it. -/
def ttRows : List Int :=
  [32712, 32329, 31960, 31603, 31257, 30923, 30599, 30285, 29981, 29685]
    ++ [29399, 29120, 28849, 28586, 28329, 28080, 27836, 27600, 27369, 27143]
    ++ [26924, 26709, 26500, 26295, 26095, 25899, 25708, 25521, 25338, 25159]
    ++ [24984, 24812, 24644, 24479, 24318, 24159, 24004, 23851, 23702, 23555]
    ++ [23411, 23270, 23131, 22994, 22860, 22728, 22599, 22471, 22346, 22223]
    ++ [22102, 21983, 21866, 21750, 21637, 21525, 21415, 21306, 21200, 21094]
    ++ [20991, 20888, 20788, 20689, 20591, 20494, 20399, 20305, 20213, 20122]
    ++ [20032, 19943, 19855, 19769, 19683, 19599, 19516, 19434, 19352, 19272]
    ++ [19193, 19115, 19038, 18961, 18886, 18811, 18738]

/-- The fields of TC-A. -/
def tcFields : List (Nat × Int) := parameterFields ⟨26500, none, 41, ttRows, .table, none⟩

/-- TC-A's registers, with a mode, a policy and a start index. -/
def tc (mode : LimitMode) (policy : IndexPolicy) (start : BitVec 8) : LimiterConfig where
  maxModule := 26500
  maxVd := 25175
  startIndex := start
  limitMode := mode
  indexPolicy := policy
  table := Vector.ofFn fun i : Fin 87 => BitVec.ofInt 16 (ttRows.getD i.val 0)

/-- A ready block with a configuration, a carrier and the host's actions. -/
def block (c : LimiterConfig) (carrier : B64) (host : List HostAction) : State :=
  { State.reset with cfg := c, carrier := carrier, host := host }

/-- TC-A's fields with the value of one field changed. -/
def changed (n : Nat) (v : Int) : List (Nat × Int) := tcFields.map fun f => if f.1 = n then (n, v) else f

/-- The values of LIMIT's two ports. -/
def limitPorts : Host.Outcome State Fault Refusal → Option (Int × Int)
  | .next s =>
    match s.out with
    | .limit o => some (o.q_out.toInt, o.d_out.toInt)
    | _ => none
  | _ => none

def faultOf : Host.Outcome State Fault Refusal → Option Fault
  | .fault f => some f
  | _ => none

def refusalOf : Host.Outcome State Fault Refusal → Option Refusal
  | .refused r => some r
  | _ => none

def completes : Host.Outcome State Fault Refusal → Bool
  | .next _ => true
  | _ => false

/-- Some legal numerics, for vectors whose angle is +0.0 or whose vector is zero: there R107 fixes what the vector
needs, and the values at the sector angles 0 and π/3 are the reference's to the bit. -/
def refNumerics : Numerics where
  atan2 _ _ := posZero
  sin x := if x = 0x3FF0C152382D7365#64 then 0x3FEBB67AE8584CAA#64 else posZero
  cos x := if x = 0x3FF0C152382D7365#64 then 0x3FE0000000000001#64 else one
  k2Sqrt3 := Config.k2Sqrt3Default
  pi64 := Config.pi64Default

/-- TICK's outputs and the carrier it leaves. -/
def tickPorts : Host.Outcome State Fault Refusal → Option (TickOut × B64)
  | .next s =>
    match s.out with
    | .tick o => some (o, s.carrier)
    | _ => none
  | _ => none

/-- 24.0. -/
def v24 : B64 := 0x4038000000000000#64

/-- Operands of a zero-vector TICK with a bus of 24.0 and a period of 1.0 (V-E16). -/
def zeroTick : TickIn := ⟨0, 0, v24, 0x3FF0000000000000#64, 0x3FE0000000000000#64, 0x3F1A36E2EB1C432D#64⟩

/-- +infinity, written out. -/
def plusInf : B64 := 0x7FF0000000000000#64

/-! ## Decoding, from words written out bit by bit (spec/30_encoding.md R50 to R54) -/

theorem test_decode_limit :
    decode ⟨0b00000001#8, { InputPorts.zero with limit := ⟨0x7FFF#16, 0x8000#16⟩ }⟩ =
      .ok (.limit 0x7FFF#16 0x8000#16) := by rfl

theorem test_decode_rotate :
    decode ⟨0b00000010#8, { InputPorts.zero with rotate := ⟨0x1#64, 0x2#64, 0x3#64⟩ }⟩ =
      .ok (.rotate 0x1#64 0x2#64 0x3#64) := by rfl

theorem test_decode_tick :
    decode ⟨0b00000011#8, { InputPorts.zero with tick := zeroTick }⟩ = .ok (.tick zeroTick) := by rfl

/-- V-D: words that spell no command, two of them a command's `op` under a `rsv` that is not 0000. -/
theorem test_reserved_words :
    [0x00, 0x04, 0x0F, 0x11, 0x83, 0xF3].map (decodeTableWord 8) =
      [none, none, none, none, none, none] := by decide

/-- The words of the table, each placed by itself, run as the first command after reset. -/
theorem test_words_run_from_reset :
    completes (step (State.reset.withFetchWord 8 0x01)) = true ∧
    completes (step (State.reset.withFetchWord 8 0x02)) = true ∧
    completes (step (State.reset.withFetchWord 8 0x03)) = true := by
  refine ⟨by decide +kernel, by decide +kernel, by decide +kernel⟩

/-! ## Well-formedness: a term that each check refuses -/

theorem test_smoke_rsvZero : CmdWord.rsvZero 0x11#8 = false := by decide

theorem test_smoke_opAssigned :
    CmdWord.opAssigned 0x00#8 = false ∧ CmdWord.opAssigned 0x04#8 = false := by decide

theorem test_smoke_wordWellFormed :
    CmdWord.wellFormed 0x11#8 = false ∧ CmdWord.wellFormed 0x0F#8 = false := by decide

theorem test_smoke_maxModuleOk :
    LimiterConfig.maxModuleOk { LimiterConfig.least with maxModule := 0 } = false ∧
    LimiterConfig.maxModuleOk { LimiterConfig.least with maxModule := 32768 } = false := by decide

theorem test_smoke_maxVdOk :
    LimiterConfig.maxVdOk { LimiterConfig.least with maxVd := 2 } = false := by decide

theorem test_smoke_startIndexOk :
    LimiterConfig.startIndexOk { LimiterConfig.least with startIndex := 129 } = false := by decide

theorem test_smoke_tableRangeOk :
    LimiterConfig.tableRangeOk { LimiterConfig.least with table := Vector.replicate 87 32768 } = false := by
  decide +kernel

theorem test_smoke_tableMonotonicOk :
    LimiterConfig.tableMonotonicOk
      { LimiterConfig.least with table := (Vector.replicate 87 0).set 6 1 } = false := by decide +kernel

theorem test_smoke_configWellFormed :
    LimiterConfig.wellFormed { LimiterConfig.least with maxVd := 2 } = false := by decide +kernel

/-! ## Construction: fields that each check of R28 refuses (V-K1 to V-K10) -/

theorem test_construction_ranges :
    failingCheck (changed 0x00 0) = some .maxModuleRange ∧
    failingCheck (changed 0x00 32768) = some .maxModuleRange ∧
    passes (changed 0x01 26501) .maxVdRange = false ∧ passes (changed 0x02 129) .startIndexRange = false ∧
    passes (changed 0x03 2) .modeValue = false ∧ passes (changed 0x04 2) .policyValue = false ∧
    passes ((0x05, 0) :: tcFields) .noReserved = false := by decide +kernel

theorem test_construction_table :
    passes (tcFields.filter fun f => f.1 != 0x96) .tableLength = false ∧
    passes (changed 0x40 32768) .tableRange = false ∧ passes (changed 0x46 31000) .tableMonotonic = false ∧
    passes (changed 0x41 32712) .tableMonotonic = true := by decide +kernel

theorem tcFields_pass : ∀ c, passes tcFields c = true :=
  failingCheck_eq_none.mp (by decide +kernel)

/-- TC-A is accepted, with the default of MAX_VD. -/
theorem test_construction_accepts :
    failingCheck tcFields = none ∧ (configOf tcFields).maxVd = 25175 :=
  ⟨failingCheck_eq_none.mpr tcFields_pass, by decide +kernel⟩

/-! ## LIMIT -/

/-- V-L10: truncation toward zero, not the floor. V-L16: the fault of WRAP8 carries the unwrapped index. -/
theorem test_limit_table :
    limitPorts (exec (.limit (BitVec.ofInt 16 (-100)) (BitVec.ofInt 16 (-30000)))
      (block (tc .table .clamp 41) 0 [])) = some (-88, -26412) ∧
    faultOf (exec (.limit 0x8000#16 0x8000#16) (block (tc .table .wrap8 41) 0 [])) =
      some (.tableIndexOutOfRange 87) := by decide +kernel

/-- V-X8: `abs(d) = MAX_VD` is held. V-X5: `q = 0` takes the non-negative root. -/
theorem test_limit_exact :
    limitPorts (exec (.limit 20000#16 (BitVec.ofInt 16 (-25175))) (block (tc .exact .clamp 41) 0 [])) =
      some (8274, -25175) ∧
    limitPorts (exec (.limit 0#16 32767#16) (block (tc .exact .clamp 41) 0 [])) =
      some (8274, 25175) := by decide +kernel

/-! ## ROTATE -/

/-- V-R1, at the angle +0.0, where R107 (c) fixes both parameter functions: 1000.0, 0.0 give 1000.0, +0.0. -/
theorem test_rotate_identity :
    rotateOutputs refNumerics 0x408F400000000000#64 0 0 = ⟨0x408F400000000000#64, 0⟩ := by decide +kernel

/-- V-R9, V-R10: an infinite or NaN operand faults. -/
theorem test_rotate_faults :
    faultOf (exec (.rotate plusInf 0 0) (block LimiterConfig.least 0 [])) = some (.nonFiniteOperand .rotate) ∧
    faultOf (exec (.rotate 0 0 0x7FF8000000000000#64) (block LimiterConfig.least 0 [])) =
      some (.nonFiniteOperand .rotate) := by decide +kernel

/-! ## TICK -/

/-- R6's legal values, "finite, positive": the least one and a finite one are taken as given; zeros, a negative value,
infinity and no value leave the default. -/
theorem test_parameter_values :
    [some 1#64, some v24].map (finitePositiveOr Config.pi64Default) = [1#64, v24] ∧
    [some 0#64, some 0x8000000000000000#64, some 0xBFF0000000000000#64, some plusInf, none].map
      (finitePositiveOr Config.pi64Default) = List.replicate 5 Config.pi64Default := by decide +kernel

/-- V-E2: 8192.0, 0.0 with a carrier of 0.5. U is high, V and W are low; T1 and Tz are 0.5, T2 is 0.0. -/
theorem test_tick_worked_example :
    tickPorts (tickWith refNumerics { zeroTick with alpha := 0x40C0000000000000#64 }
      (block LimiterConfig.least 0x3FE0000000000000#64 [])) =
      some (⟨v24, 0, 0, 0, 1, 0x3FE0000000000000#64, 0x3FE0000000000000#64, 0, 0x3FE0000000000000#64⟩,
        0x3FE0000000000000#64) := by decide +kernel

/-- V-F6, V-F7, V-F3: finiteness comes first, then the period, then the bus. -/
theorem test_tick_check_order :
    tickCheck { zeroTick with busVoltage := 0xBFF0000000000000#64, carrierPeriod := 0x7FF8000000000000#64 } =
      some (.nonFiniteOperand .tick) ∧
    tickCheck { zeroTick with busVoltage := 0xBFF0000000000000#64, carrierPeriod := 0 } =
      some (.invalidTickOperand .carrierPeriod) ∧
    tickCheck { zeroTick with busVoltage := 0xBFF0000000000000#64 } =
      some (.invalidTickOperand .busVoltage) := by decide +kernel

/-! ## Programs -/

/-- Program P3's shape (spec/95_test_vectors.md): a faulted command is the last one to run until a reset. -/
theorem test_fault_is_sticky :
    (runProgram
        [.command .tick [.real 0, .real 0, .real v24, .real 0, .real 0, .real 0] [],
          .command .limit [.int 1, .int 1] ["q1", "d1"]]
        (block LimiterConfig.least 0 [])).map (fun r => (r.1, r.2.mark)) =
      some ([], some (.fault (.invalidTickOperand .carrierPeriod))) := by decide +kernel

/-- R55's examples of lines, and a RESET with a comment. The operand 0.0001 is 0x3F1A36E2EB1C432D. -/
theorem test_read_program :
    readProgram
      "LIMIT 32767, -0x10 -> q1, d1\nROTATE toF(q1), toF(d1), -0.0 -> a1, b1\nRESET ; x\nTICK a1, b1, 24.0, 0x1.8p-1, 5e-324, 0.0001".toList =
    some
      [.command .limit [.int 32767, .int (-16)] ["q1", "d1"],
        .command .rotate [.toF "q1", .toF "d1", .real 0x8000000000000000#64] ["a1", "b1"],
        .reset,
        .command .tick [.name "a1", .name "b1", .real v24, .real 0x3FE8000000000000#64, .real 1,
          .real 0x3F1A36E2EB1C432D#64] []] := by decide +kernel

/-! ## Witnesses -/

/-- A command action on operands the encoder places. -/
def act (i : Instr) : HostAction := .command (encode i)

/-- Its range checks leave the mode and the policy alone, so one evaluation serves them all. -/
theorem tc_wellFormed (mode : LimitMode) (policy : IndexPolicy) (start : BitVec 8) (h : start.toNat ≤ 128) :
    (tc mode policy start).wellFormed = true := by
  have h0 : (tc .table .clamp 41).wellFormed = true := by decide +kernel
  rw [wellFormed_iff] at h0 ⊢
  exact ⟨h0.1, h0.2.1, h, h0.2.2.2⟩

/-- Both ends of each run of reserved words. -/
theorem witness_ReservedWordsRefused :
    (block LimiterConfig.least 0 [.command ⟨0xFF#8, neutralPorts⟩]).ready = true ∧
    ∀ w ∈ [0x00#8, 0x04#8, 0x0F#8, 0x10#8, 0xFF#8], w ≠ 0x01#8 ∧ w ≠ 0x02#8 ∧ w ≠ 0x03#8 := by decide

theorem witness_DecodeAndEncodeAgree :
    (Instr.limit 0x8000#16 0x7FFF#16).wellFormed = true ∧
    decode ⟨0x01#8, neutralPorts⟩ = .ok (.limit 0 0) := by exact ⟨rfl, rfl⟩

theorem witness_StepRunsDecodedCommand :
    let s := block LimiterConfig.least 0 [act (.tick zeroTick)]
    s.ready = true ∧ s.host = act (.tick zeroTick) :: [] ∧ decode (encode (.tick zeroTick)) = .ok (.tick zeroTick) ∧
    (Instr.tick zeroTick).wellFormed = true ∧ decodeTableWord 8 0x01 = some (.limit 0 0) := by
  exact ⟨rfl, rfl, rfl, rfl, rfl⟩

theorem witness_NothingBetweenCommands : State.reset.host = [] := rfl

/-- The sum of squares of two operands, and MAX_MODULE's square. -/
def sumOf (q d : I16) : Int := q.toInt * q.toInt + d.toInt * d.toInt

def radiusSq (c : LimiterConfig) : Int := (c.maxModule.toNat : Int) * c.maxModule.toNat

/-- The zero vector, and the boundary of the circle (V-L1, V-L2). -/
theorem witness_LimitInsideCircleUnchanged :
    sumOf 0#16 0#16 ≤ radiusSq (tc .table .clamp 41) ∧ sumOf 26500#16 0#16 ≤ radiusSq (tc .table .clamp 41) := by
  decide +kernel

theorem witness_BucketIndexRange : (tc .table .clamp 41).wellFormed = true := tc_wellFormed _ _ _ (by decide)

/-- The hypotheses of LimitTableClampScales. -/
def clampHyps (q d : I16) (c : LimiterConfig) (k : BitVec 16) : Prop :=
  c.wellFormed = true ∧ radiusSq c < sumOf q d ∧ c.limitMode = .table ∧ c.indexPolicy = .clamp ∧
    c.table[(min (max (sumOf q d / 2 ^ 24 - (c.startIndex.toNat : Int)) 0) 86).toNat]? = some k

/-- The low clamp (V-L20, raw -1) and the high clamp (V-L8, raw 87). -/
theorem witness_LimitTableClampScales :
    clampHyps 26501#16 0#16 (tc .table .clamp 42) 32712#16 ∧
    clampHyps 0x8000#16 0x8000#16 (tc .table .clamp 41) 18738#16 :=
  ⟨⟨tc_wellFormed _ _ _ (by decide), by decide +kernel⟩, ⟨tc_wellFormed _ _ _ (by decide), by decide +kernel⟩⟩

/-- The hypotheses of LimitTableWrapScales. -/
def wrapHyps (q d : I16) (c : LimiterConfig) (k : BitVec 16) : Prop :=
  c.wellFormed = true ∧ radiusSq c < sumOf q d ∧ c.limitMode = .table ∧ c.indexPolicy = .wrap8 ∧
    c.table[((sumOf q d / 2 ^ 24 - (c.startIndex.toNat : Int)) % 256).toNat]? = some k

/-- The first entry (V-L18) and the last (V-L24). -/
theorem witness_LimitTableWrapScales :
    wrapHyps 26501#16 0#16 (tc .table .wrap8 41) 32712#16 ∧
    wrapHyps 0x8000#16 0x8000#16 (tc .table .wrap8 42) 18738#16 :=
  ⟨⟨tc_wellFormed _ _ _ (by decide), by decide +kernel⟩, ⟨tc_wellFormed _ _ _ (by decide), by decide +kernel⟩⟩

/-- The hypotheses of LimitTableWrapFaults, at one value of `raw mod 256`. -/
def wrapFaultHyps (q d : I16) (c : LimiterConfig) (idx : Int) : Prop :=
  radiusSq c < sumOf q d ∧ c.limitMode = .table ∧ c.indexPolicy = .wrap8 ∧
    (sumOf q d / 2 ^ 24 - (c.startIndex.toNat : Int)) % 256 = idx ∧ 87 ≤ idx

/-- The least faulting index (V-L16, 87) and the greatest (V-L21, 255). -/
theorem witness_LimitTableWrapFaults :
    wrapFaultHyps 0x8000#16 0x8000#16 (tc .table .wrap8 41) 87 ∧
    wrapFaultHyps 26501#16 0#16 (tc .table .wrap8 42) 255 := by
  exact ⟨by unfold wrapFaultHyps; decide +kernel, by unfold wrapFaultHyps; decide +kernel⟩

/-- V-X8: equality is within. -/
theorem witness_LimitExactHoldsDirectAxis :
    let c := tc .exact .clamp 41
    c.wellFormed = true ∧ radiusSq c < sumOf 20000#16 (BitVec.ofInt 16 (-25175)) ∧
    c.limitMode = .exact ∧ (BitVec.ofInt 16 (-25175)).toInt.natAbs ≤ c.maxVd.toNat :=
  ⟨tc_wellFormed _ _ _ (by decide), by decide +kernel⟩

/-- V-X9: one past the bound. V-X5: `q = 0`. -/
theorem witness_LimitExactSaturatesDirectAxis :
    let c := tc .exact .clamp 41
    c.wellFormed = true ∧ c.limitMode = .exact ∧
    (radiusSq c < sumOf 20000#16 (BitVec.ofInt 16 (-25176)) ∧
      c.maxVd.toNat < (BitVec.ofInt 16 (-25176)).toInt.natAbs) ∧
    (radiusSq c < sumOf 0#16 32767#16 ∧ c.maxVd.toNat < (32767#16).toInt.natAbs) :=
  ⟨tc_wellFormed _ _ _ (by decide), by decide +kernel⟩

theorem witness_LimitCompletesUnlessWrapped :
    (tc .table .clamp 41).indexPolicy = .clamp ∧ (tc .exact .wrap8 41).limitMode = .exact := by decide +kernel

/-- V-L9, where a component truncates to 0. -/
theorem witness_LimitKeepsSignsAndFits :
    (tc .table .clamp 41).wellFormed = true ∧
    limitResult (tc .table .clamp 41) (1#16).toInt (0x8001#16).toInt = .ok (0, -26499) := by
  exact ⟨tc_wellFormed _ _ _ (by decide), by rfl⟩

theorem witness_LimitExactStaysInCircle :
    (tc .exact .clamp 41).wellFormed = true ∧ (tc .exact .clamp 41).limitMode = .exact :=
  ⟨tc_wellFormed _ _ _ (by decide), rfl⟩

/-- The table of TC-A meets R72's condition, and a LIMIT outside the circle completes (V-L7). -/
theorem witness_LimitTableStaysInCircle :
    let c := tc .table .clamp 41
    c.wellFormed = true ∧ c.limitMode = .table ∧
    (∀ (i : Nat) (k : BitVec 16), c.table[i]? = some k →
      k.toNat ^ 2 * (if i < 86 then min (2 ^ 31) ((c.startIndex.toNat + i + 1) * 2 ^ 24 - 1) else 2 ^ 31)
        ≤ 2 ^ 30 * c.maxModule.toNat ^ 2) ∧
    limitPorts (exec (.limit 32767#16 32767#16) (block c 0 [])) = some (18737, 18737) := by
  have h : ∀ i : Fin 87, ((tc .table .clamp 41).table[i.val]).toNat ^ 2 *
      (if i.val < 86 then min (2 ^ 31) (((tc .table .clamp 41).startIndex.toNat + i.val + 1) * 2 ^ 24 - 1)
        else 2 ^ 31) ≤ 2 ^ 30 * (tc .table .clamp 41).maxModule.toNat ^ 2 := by decide +kernel
  refine ⟨tc_wellFormed _ _ _ (by decide), rfl, fun i k hk => ?_, by decide +kernel⟩
  rw [Vector.getElem?_eq_some_iff] at hk
  obtain ⟨hi, rfl⟩ := hk
  exact h ⟨i, hi⟩

theorem witness_TableEndsAreExtreme : (tc .table .clamp 41).wellFormed = true := tc_wellFormed _ _ _ (by decide)

theorem witness_LimitDependsOnConfigOnly :
    (block LimiterConfig.least 0 []).cfg = (block LimiterConfig.least v24 [.reset]).cfg := rfl

/-- Each operand not finite, and all three finite at the largest finite value. -/
theorem witness_RotateResult :
    isFinite plusInf = false ∧ isFinite 0x7FF8000000000000#64 = false ∧
    isFinite 0x7FEFFFFFFFFFFFFF#64 = true ∧ isFinite 0xFFEFFFFFFFFFFFFF#64 = true := by decide

theorem witness_RotateByZeroIsIdentity :
    isFinite 0x7FEFFFFFFFFFFFFF#64 = true ∧ isFinite 0x8000000000000000#64 = true := by decide

/-- The smallest period that passes, with a bus of -0.0 (V-F9, V-E15). -/
theorem witness_TickResult :
    tickValid zeroTick = true ∧
    tickValid { zeroTick with carrierPeriod := 1, busVoltage := 0x8000000000000000#64 } = true := by
  decide +kernel

/-- One operand set for each clause; the period -0.0 is V-F8. -/
theorem witness_TickChecksInOrder :
    tickFinite { zeroTick with dt := plusInf } = false ∧
    (let p := { zeroTick with carrierPeriod := 0x8000000000000000#64 }
     tickFinite p = true ∧ fle p.carrierPeriod (toF 0) = true) ∧
    (let p := { zeroTick with carrierPeriod := 1, busVoltage := 0x8000000000000001#64 }
     tickFinite p = true ∧ fle p.carrierPeriod (toF 0) = false ∧ flt p.busVoltage (toF 0) = true) := by
  decide +kernel

/-- The ends of the six wedges (V-S1 to V-S16). -/
theorem witness_SectorWedges :
    wedge 0 .s1 = true ∧ wedge (toF 60) .s1 = true ∧ wedge 0x404E000000000001#64 .s2 = true ∧
    wedge (toF 120) .s2 = true ∧ wedge 0x405E000000000001#64 .s3 = true ∧ wedge (toF 180) .s3 = true ∧
    wedge 0xC0667FFFFFFFFFFF#64 .s4 = true ∧ wedge 0xC05E000000000001#64 .s4 = true ∧
    wedge (toF (-120)) .s5 = true ∧ wedge 0xC04E000000000001#64 .s5 = true ∧
    wedge (toF (-60)) .s6 = true ∧ wedge 0x8000000000000001#64 .s6 = true ∧
    flt (toF (-180)) (toF 180) = true ∧ fle (toF 180) (toF 180) = true ∧
    isZero 0x8000000000000000#64 = true := by decide +kernel

/-- V-S9, V-S8, V-S18 and a NaN: no wedge. -/
theorem witness_SectorFallback :
    ∀ x ∈ [toF (-180), 0x4066800000000001#64, toF (-200), 0x7FF8000000000000#64], ∀ n, wedge x n = false := by
  intro x hx n
  have h : ([toF (-180), 0x4066800000000001#64, toF (-200), 0x7FF8000000000000#64] : List B64).all
      (fun x => [Sector.s1, .s2, .s3, .s4, .s5, .s6].all fun n => !wedge x n) = true := by decide +kernel
  have h2 := List.all_eq_true.mp (List.all_eq_true.mp h x hx) n (by cases n <;> decide)
  simpa using h2

theorem witness_DegreesAreNoNaN : tickValid zeroTick = true := witness_TickResult.1

theorem witness_DegreesAndSectorAngles : refNumerics.pi64 = Config.pi64Default := rfl

theorem witness_PhaseOutputsAreLevels : tickValid zeroTick = true := witness_TickResult.1

/-- Above the carrier, not above it (a NaN carrier), at it (V-E16 and zeros of two signs), below it, and a NaN. -/
theorem witness_ComparatorIsStrict :
    fgt 0x1#64 0 = true ∧ fgt 0x1#64 0x7FF8000000000000#64 = false ∧ feq 0x3FE0000000000000#64 0x3FE0000000000000#64 = true ∧
    feq 0x8000000000000000#64 0 = true ∧ flt 0x8000000000000001#64 0 = true ∧
    isNaN 0x7FF8000000000000#64 = true := by decide

/-- V-E13: negative zeros. V-F9: the smallest period. -/
theorem witness_ZeroVectorTick :
    (let p := { zeroTick with alpha := 0x8000000000000000#64, beta := 0x8000000000000000#64, carrierPeriod := 1 }
     tickValid p = true ∧ isZero p.alpha = true ∧ isZero p.beta = true) ∧
    tickValid zeroTick = true ∧ isZero zeroTick.alpha = true ∧ isZero zeroTick.beta = true := by decide +kernel

theorem witness_TickDependsOnCarrierOnly :
    (block LimiterConfig.least v24 []).carrier = (block (tc .exact .clamp 41) v24 []).carrier := rfl

theorem witness_CarrierAdvancesOncePerTick :
    let s := block LimiterConfig.least 0 [act (.tick zeroTick), act (.tick zeroTick), .reset]
    s.ready = true ∧
    s.host = [zeroTick, zeroTick].map (fun p => HostAction.command (encode (.tick p))) ++ [.reset] ∧
    ∀ p ∈ [zeroTick, zeroTick], tickValid p = true :=
  ⟨rfl, rfl, by decide +kernel⟩

theorem witness_LimitAndRotateFrame :
    let s := block LimiterConfig.least 0 []
    completes (exec (.limit 1#16 0#16) s) = true ∧ completes (exec (.rotate 0 0 0) s) = true := by decide +kernel

theorem witness_TickFrame :
    completes (exec (.tick zeroTick) (block LimiterConfig.least 0 [])) = true := by decide +kernel

theorem witness_OtherCommandsIdempotent :
    (Instr.limit 1#16 0#16).command ≠ .tick ∧
    completes (exec (.limit 1#16 0#16) (block LimiterConfig.least 0 [])) = true := by decide +kernel

/-- A construction from the least configuration to TC-A. -/
theorem witness_ConfigurationReadOnly :
    ∃ t, step (block LimiterConfig.least 0 [.construct tcFields]) = .next t ∧
      t.cfg ≠ (block LimiterConfig.least 0 [.construct tcFields]).cfg := by
  refine ⟨resetBlock { block LimiterConfig.least 0 [.construct tcFields] with
    phase := .run, cfg := configOf tcFields, host := [] }, ?_, ?_⟩
  · rw [step_cons (a := .construct tcFields) (rest := []) rfl]
    simp only [takeAction, construct, failingCheck_eq_none.mpr tcFields_pass]
  · change configOf tcFields ≠ LimiterConfig.least
    decide +kernel

/-- The carrier moves under a TICK, a reset and a construction. -/
theorem witness_OnlyTickMovesCarrier :
    (∃ t, step (block LimiterConfig.least 0 [act (.tick { zeroTick with secondaryInput := v24 })]) = .next t ∧
      t.carrier ≠ 0) ∧
    (∃ t, step (block LimiterConfig.least v24 [.reset]) = .next t ∧ t.carrier ≠ v24) ∧
    (∃ t, step (block LimiterConfig.least v24 [.construct tcFields]) = .next t ∧ t.carrier ≠ v24) := by
  refine ⟨⟨_, (step_command (c := encode (.tick { zeroTick with secondaryInput := v24 })) rfl rfl).trans
    (execTick_valid (by decide +kernel) _), by decide +kernel⟩, ⟨_, rfl, by decide +kernel⟩, ?_⟩
  refine ⟨resetBlock { block LimiterConfig.least v24 [.construct tcFields] with
    phase := .run, cfg := configOf tcFields, host := [] }, ?_, by decide +kernel⟩
  rw [step_cons (a := .construct tcFields) (rest := []) rfl]
  simp only [takeAction, construct, failingCheck_eq_none.mpr tcFields_pass]

/-- A command that faults, and one that is refused. -/
theorem witness_StopsWriteNothing :
    faultOf (step (block LimiterConfig.least 0 [act (.rotate plusInf 0 0)])) = some (.nonFiniteOperand .rotate) ∧
    refusalOf (step (block LimiterConfig.least 0 [.command ⟨0x04#8, neutralPorts⟩])) =
      some (.reservedCommand 0x04#8) := by decide +kernel

theorem witness_RecordedStopIsFinal :
    let s := { block LimiterConfig.least 0 [act (.limit 0 0)] with
      mark := some (.fault (.nonFiniteOperand .tick)) }
    s.mark = some (.fault (.nonFiniteOperand .tick)) ∧ s.host = act (.limit 0 0) :: [] := ⟨rfl, rfl⟩

theorem witness_OnlyResetOrConstructionClears :
    let s := { block LimiterConfig.least 0 [.reset] with mark := some (.fault (.nonFiniteOperand .tick)) }
    s.mark = some (.fault (.nonFiniteOperand .tick)) ∧ (advance s).mark = none := ⟨rfl, rfl⟩

/-- A PIPE that faults in LIMIT, one that faults in ROTATE, and one that reaches TICK. -/
theorem witness_PipeIsThreeCommands :
    (block (tc .table .wrap8 41) 0 []).ready = true ∧
    faultOf (exec (.limit 0x8000#16 0x8000#16) (block (tc .table .wrap8 41) 0 [])) =
      some (.tableIndexOutOfRange 87) ∧
    limitPorts (exec (.limit 1#16 0#16) (block (tc .table .wrap8 41) 0 [])) = some (1, 0) ∧
    faultOf (exec (.rotate (toF 1) (toF 0) plusInf) (block (tc .table .wrap8 41) 0 [])) =
      some (.nonFiniteOperand .rotate) ∧
    completes (exec (.rotate (toF 1) (toF 0) 0) (block (tc .table .wrap8 41) 0 [])) = true := by decide +kernel

/-- Reset of a run that has faulted. -/
theorem witness_ResetStartsNewRun :
    let s := { block LimiterConfig.least v24 [.reset] with mark := some (.fault (.nonFiniteOperand .tick)) }
    s.phase = .run ∧ s.host = .reset :: [] := ⟨rfl, rfl⟩

theorem witness_ConstructionLoadsRegisters :
    (block LimiterConfig.least 0 [.construct tcFields]).host = .construct tcFields :: [] ∧
    (∀ c, CheckHolds tcFields c) ∧ ∀ c, passes tcFields c = true :=
  ⟨rfl, fun c => (passes_iff_checkHolds _ c).mp (tcFields_pass c), tcFields_pass⟩

theorem witness_ConstructionRefusesIllFormed :
    (block LimiterConfig.least 0 [.construct (changed 0x02 129)]).host = .construct (changed 0x02 129) :: [] ∧
    ¬CheckHolds (changed 0x02 129) .startIndexRange ∧ passes (changed 0x02 129) .startIndexRange = false := by
  have h : passes (changed 0x02 129) .startIndexRange = false := by decide +kernel
  exact ⟨rfl, fun hc => Bool.false_ne_true (h.symm.trans ((passes_iff_checkHolds _ _).mpr hc)), h⟩

theorem witness_RefusedConstructionHasNoRun :
    refusalOf (step (block LimiterConfig.least 0 [.construct (changed 0x00 0)])) =
      some (.illFormedConfig .maxModuleRange) := by decide +kernel

/-- A state with a TICK to run, and the state after it. -/
theorem witness_InvariantKeptByStep :
    (block LimiterConfig.least 0 [act (.tick zeroTick)]).Inv = true ∧
    completes (core.step (block LimiterConfig.least 0 [act (.tick zeroTick)])) = true := by
  exact ⟨by decide +kernel, by decide +kernel⟩

theorem witness_InvariantKeptByRun :
    (block (tc .exact .clamp 41) 0 [act (.limit 32767#16 32767#16), .reset]).Inv = true := by
  have h := tc_wellFormed .exact .clamp 41#8 (by decide)
  simp [State.Inv, State.cfgLegal, block, outputsLegal, h]

/-- The largest finite value and the smallest above zero; an exact zero sum and difference of zeros. -/
theorem witness_AdditionRoundsCorrectly :
    isFinite 0x7FEFFFFFFFFFFFFF#64 = true ∧ isFinite 0x0000000000000001#64 = true ∧
    isFinite (zero true) = true ∧ isFinite (zero false) = true ∧
    floatValue (zero true) + floatValue (zero true) = 0 ∧ floatValue (zero true) - floatValue (zero false) = 0 :=
  ⟨by decide, by decide, isFinite_zero _, isFinite_zero _,
    by rw [floatValue_of_isZero (isZero_zero _)]; norm_num,
    by rw [floatValue_of_isZero (isZero_zero _), floatValue_of_isZero (isZero_zero _)]; norm_num⟩

/-- Finite operands, a zero of either place, and beside an infinity the smallest value and an infinity. -/
theorem witness_MultiplicationRoundsCorrectly :
    isFinite 0x7FEFFFFFFFFFFFFF#64 = true ∧ isFinite (zero true) = true ∧ isZero (zero true) = true ∧
    isNaN 0x8000000000000001#64 = false ∧ isZero 0x8000000000000001#64 = false ∧
    isNaN (infinity true) = false ∧ isZero (infinity true) = false := by decide

/-- A divisor that is not zero, a dividend that is one, and a division by zero. -/
theorem witness_DivisionRoundsCorrectly :
    isFinite 0x7FEFFFFFFFFFFFFF#64 = true ∧ isFinite 0x0000000000000001#64 = true ∧
    isZero 0x0000000000000001#64 = false ∧ isFinite (zero true) = true ∧ isZero (zero true) = true := by decide

/-- 1.0, and zeros of both signs. -/
theorem witness_SquareRootRoundsCorrectly :
    isFinite one = true ∧ 0 ≤ floatValue one ∧ isFinite (zero true) = true ∧ 0 ≤ floatValue (zero true) ∧
    isZero (zero true) = true ∧ isZero (zero false) = true :=
  ⟨isFinite_one, by rw [floatValue_one]; norm_num, isFinite_zero _,
    (floatValue_of_isZero (isZero_zero _)).ge, isZero_zero _, isZero_zero _⟩

/-- V-E4's and V-R5's signs: -0.0 / 16384.0, -0.0 * 1.0 and -0.0 + -0.0 are -0.0. -/
theorem test_zero_signs :
    fdiv 0x8000000000000000#64 (toF 16384) = 0x8000000000000000#64 ∧
    fmul 0x8000000000000000#64 one = 0x8000000000000000#64 ∧
    fadd 0x8000000000000000#64 0x8000000000000000#64 = 0x8000000000000000#64 := by decide +kernel

/-- A NaN, finite operands, and zeros of two signs. -/
theorem witness_ComparisonsCompareValues :
    isNaN 0x7FF0000000000001#64 = true ∧ isFinite 0x7FEFFFFFFFFFFFFF#64 = true ∧
    isZero 0 = true ∧ isZero 0x8000000000000000#64 = true := by decide

theorem witness_IntegersConvertExactly : (-(2 ^ 53) : Int).natAbs ≤ 2 ^ 53 ∧ (0 : Int).natAbs ≤ 2 ^ 53 := by decide

theorem witness_InvalidOperationsGiveNaN :
    isNaN 0xFFF8000000000000#64 = true ∧ isZero 0x8000000000000000#64 = true ∧
    isFinite (fneg one) = true ∧ floatValue (fneg one) < 0 := by
  have h : unpack (fneg one) = .fin true (2 ^ 52) (-52) := by decide +kernel
  refine ⟨by decide, by decide, by decide +kernel, ?_⟩
  rw [floatValue_of_unpack h]
  norm_num [signFactor]

end Sys2Proof.Tests
end

section
/-! PROOFS. Binary64 arithmetic (spec/00_scope.md R9): each operation's exact result as it reaches `roundPack`, so
that `roundPack_correct` applies, and what IEEE 754 says of zeros, infinities and NaNs (log entry 15). -/

namespace Sys2Proof.Machine

/-! ## The sign operations, field by field -/

theorem signBit_fabs (x : B64) : signBit (fabs x) = false := by simp [signBit, fabs]

theorem expField_fabs (x : B64) : expField (fabs x) = expField x := by
  have hmask : (0x7FFFFFFFFFFFFFFF#64).extractLsb' 52 11 = BitVec.allOnes 11 := by decide
  rw [expField, fabs, BitVec.extractLsb'_and, hmask, BitVec.and_allOnes, expField]

theorem fracField_fabs (x : B64) : fracField (fabs x) = fracField x := by
  have hmask : (0x7FFFFFFFFFFFFFFF#64).extractLsb' 0 52 = BitVec.allOnes 52 := by decide
  rw [fracField, fabs, BitVec.extractLsb'_and, hmask, BitVec.and_allOnes, fracField]

theorem expField_fneg (x : B64) : expField (fneg x) = expField x := by
  have hmask : (0x8000000000000000#64).extractLsb' 52 11 = 0#11 := by decide
  rw [expField, fneg, BitVec.extractLsb'_xor, hmask, BitVec.xor_zero, expField]

theorem fracField_fneg (x : B64) : fracField (fneg x) = fracField x := by
  have hmask : (0x8000000000000000#64).extractLsb' 0 52 = 0#52 := by decide
  rw [fracField, fneg, BitVec.extractLsb'_xor, hmask, BitVec.xor_zero, fracField]

theorem unpack_fneg (x : B64) : unpack (fneg x) = (unpack x).neg := by
  simp only [unpack, expField_fneg, fracField_fneg, signBit_fneg]
  split_ifs <;> rfl

theorem fneg_fneg (x : B64) : fneg (fneg x) = x := by simp [fneg]

theorem fneg_eq_zero_true_iff {x : B64} : fneg x = zero true ↔ x = zero false := by
  constructor
  · intro h
    rw [← fneg_fneg x, h]
    decide
  · rintro rfl
    decide

theorem floatValue_fneg {x : B64} (hx : isFinite x = true) : floatValue (fneg x) = -floatValue x := by
  obtain ⟨m, e, hu, -, -⟩ := unpack_finite hx
  have hn : unpack (fneg x) = .fin (!signBit x) m e := by rw [unpack_fneg, hu, Unpacked.neg]
  rw [floatValue_of_unpack hn, floatValue_of_unpack hu, signFactor_not]
  ring

/-! ## Rounding an exact result -/

theorem fracField_zero (neg : Bool) : fracField (zero neg) = 0 := (isZero_iff.mp (isZero_zero neg)).2

theorem correctlyRounded_zero (neg : Bool) : CorrectlyRounded 0 (zero neg) := by
  refine ⟨fun _ => ⟨isFinite_zero neg, fun z _ => ⟨?_, fun _ _ => ?_⟩⟩, fun h => ?_⟩
  · rw [floatValue_of_isZero (isZero_zero neg)]
    simp
  · rw [fracField_zero]
  · have hpos : (0 : ℝ) < overflowBound := lt_of_lt_of_le (by positivity) pow_1023_le_overflowBound
    rw [abs_zero] at h
    exact absurd h (not_le.mpr hpos)

/-- With nothing dropped, the value handed to `roundPack` is the one rounded, a zero too. -/
theorem roundPack_correct_of_value {v : ℚ} {neg : Bool} {m : ℕ} {e : ℤ} (hv : v = signFactor neg * m * 2 ^ e) :
    CorrectlyRounded v (roundPack neg m e false) := by
  rw [hv]
  push_cast
  rcases Nat.eq_zero_or_pos m with rfl | hm
  · rw [roundPack_zero, Nat.cast_zero, mul_zero, zero_mul]
    exact correctlyRounded_zero neg
  · have h := roundPack_correct neg hm (e := e) (sticky := false) (δ := 0) le_rfl one_pos (by simp) (by simp)
    rwa [add_zero, ← mul_assoc] at h

/-- A significand of more than 53 bits loses some, so it may come with a dropped part. -/
theorem lt_quantum_of_wide {m : ℕ} (e : ℤ) (h : 2 ^ 53 ≤ m) : e < quantum m e := by
  have hlog : 53 ≤ Nat.log2 m := (Nat.le_log2 (by omega)).mpr h
  have := quantum_ge' m e
  omega

/-! ## Finite values by their significand -/

theorem sig_eq_zero_iff {x : B64} {a : Bool} {m : ℕ} {e : ℤ} (h : unpack x = .fin a m e) :
    m = 0 ↔ isZero x = true := by
  have hs : signFactor a ≠ 0 := by cases a <;> norm_num [signFactor]
  have hp : (2 : ℚ) ^ e ≠ 0 := by positivity
  rw [← floatValue_eq_zero_iff (isFinite_of_unpack h), floatValue_of_unpack h]
  simp [hs, hp]

theorem sig_ne_zero {x : B64} {a : Bool} {m : ℕ} {e : ℤ} (h : unpack x = .fin a m e) (h0 : isZero x = false) :
    m ≠ 0 := by
  rw [Ne, sig_eq_zero_iff h, h0]
  exact Bool.false_ne_true

theorem floatValue_nonpos {x : B64} (hx : isFinite x = true) (hs : signBit x = true) : floatValue x ≤ 0 := by
  have := magValue_nonneg (magnitude x)
  rw [floatValue_eq hx, hs]
  simpa [signFactor] using this

theorem floatValue_nonneg {x : B64} (hx : isFinite x = true) (hs : signBit x = false) : 0 ≤ floatValue x := by
  have := magValue_nonneg (magnitude x)
  rw [floatValue_eq hx, hs]
  simpa [signFactor] using this

theorem eq_zero_true {x : B64} (hx : isFinite x = true) (hs : signBit x = true) (hv : 0 ≤ floatValue x) :
    x = zero true := by
  have h0 : floatValue x = 0 := le_antisymm (floatValue_nonpos hx hs) hv
  rw [eq_zero_of_isZero ((floatValue_eq_zero_iff hx).mp h0), hs]

/-! ## Addition and subtraction -/

theorem fadd_correct {x y : B64} (hx : isFinite x = true) (hy : isFinite y = true) :
    CorrectlyRounded ((floatValue x : ℝ) + floatValue y) (fadd x y) := by
  obtain ⟨m, e, hu, -, -⟩ := unpack_finite hx
  obtain ⟨n, f, hv, -, -⟩ := unpack_finite hy
  have hsum := sumSig_value (signBit x) m e (signBit y) n f
  rw [← floatValue_of_unpack hu, ← floatValue_of_unpack hv] at hsum
  rw [fadd_of_unpack hu hv]
  generalize sumSig (signBit x) m e (signBit y) n f = s at hsum ⊢
  rw [← Rat.cast_add, ← hsum]
  split
  case isTrue h0 =>
    rw [h0, Int.cast_zero, zero_mul, Rat.cast_zero]
    exact correctlyRounded_zero _
  case isFalse => exact roundPack_correct_of_value (by rw [signFactor_natAbs])

/-- An exact zero sum is negative only if it is the sum of two negative zeros. -/
theorem fadd_of_sum_eq_zero {x y : B64} (hx : isFinite x = true) (hy : isFinite y = true)
    (h : floatValue x + floatValue y = 0) :
    fadd x y = if x = zero true ∧ y = zero true then zero true else zero false := by
  have hsign : fadd x y = zero (signBit x && signBit y) := by
    obtain ⟨m, e, hu, -, -⟩ := unpack_finite hx
    obtain ⟨n, f, hv, -, -⟩ := unpack_finite hy
    have hsum := sumSig_value (signBit x) m e (signBit y) n f
    rw [← floatValue_of_unpack hu, ← floatValue_of_unpack hv, h] at hsum
    have hs : sumSig (signBit x) m e (signBit y) n f = 0 := by
      have hp : (2 : ℚ) ^ min e f ≠ 0 := by positivity
      exact_mod_cast (mul_eq_zero.mp hsum).resolve_right hp
    rw [fadd_of_unpack hu hv, if_pos hs]
  split
  case isTrue hz =>
    obtain ⟨rfl, rfl⟩ := hz
    rw [hsign, signBit_zero, Bool.and_self]
  case isFalse hz =>
    have hand : (signBit x && signBit y) = false := by
      by_contra hb
      obtain ⟨hsx, hsy⟩ : signBit x = true ∧ signBit y = true := by simpa using hb
      have h1 := floatValue_nonpos hx hsx
      have h2 := floatValue_nonpos hy hsy
      exact hz ⟨eq_zero_true hx hsx (by linarith), eq_zero_true hy hsy (by linarith)⟩
    rw [hsign, hand]

/-- Between finite values, subtracting is adding the negation. -/
theorem fsub_eq_fadd_fneg {x y : B64} (hx : isFinite x = true) (hy : isFinite y = true) :
    fsub x y = fadd x (fneg y) := by
  obtain ⟨m, e, hu, -, -⟩ := unpack_finite hx
  obtain ⟨n, f, hv, -, -⟩ := unpack_finite hy
  have hn : unpack (fneg y) = .fin (!signBit y) n f := by rw [unpack_fneg, hv, Unpacked.neg]
  rw [fsub_of_unpack hu hv, fadd_of_unpack hu hn]

theorem fsub_correct {x y : B64} (hx : isFinite x = true) (hy : isFinite y = true) :
    CorrectlyRounded ((floatValue x : ℝ) - floatValue y) (fsub x y) := by
  have h := fadd_correct hx (y := fneg y) (by rw [isFinite_fneg, hy])
  rw [floatValue_fneg hy, Rat.cast_neg, ← sub_eq_add_neg] at h
  rwa [fsub_eq_fadd_fneg hx hy]

theorem fsub_of_sub_eq_zero {x y : B64} (hx : isFinite x = true) (hy : isFinite y = true)
    (h : floatValue x - floatValue y = 0) :
    fsub x y = if x = zero true ∧ y = zero false then zero true else zero false := by
  rw [fsub_eq_fadd_fneg hx hy, fadd_of_sum_eq_zero hx (by rw [isFinite_fneg, hy])
    (by rw [floatValue_fneg hy, ← sub_eq_add_neg, h])]
  simp only [fneg_eq_zero_true_iff]

theorem fadd_infinity (a : Bool) {y : B64} (hy : isFinite y = true) :
    fadd (infinity a) y = infinity a ∧ fadd y (infinity a) = infinity a := by
  obtain ⟨n, f, hv, -, -⟩ := unpack_finite hy
  simp [fadd, addUnpacked, unpack_infinity, hv]

theorem fsub_infinity (a : Bool) {y : B64} (hy : isFinite y = true) :
    fsub (infinity a) y = infinity a ∧ fsub y (infinity a) = infinity !a := by
  obtain ⟨n, f, hv, -, -⟩ := unpack_finite hy
  simp [fsub, addUnpacked, Unpacked.neg, unpack_infinity, hv]

theorem fadd_infinities (a b : Bool) :
    fadd (infinity a) (infinity b)
      = if a = b then infinity a else nanResult .add (infinity a) (infinity b) := by
  simp [fadd, addUnpacked, unpack_infinity]

theorem fsub_infinities (a b : Bool) :
    fsub (infinity a) (infinity b)
      = if a = !b then infinity a else nanResult .sub (infinity a) (infinity b) := by
  simp [fsub, addUnpacked, Unpacked.neg, unpack_infinity]

/-! ## Multiplication -/

theorem fmul_correct {x y : B64} (hx : isFinite x = true) (hy : isFinite y = true) :
    CorrectlyRounded ((floatValue x : ℝ) * floatValue y) (fmul x y) := by
  obtain ⟨m, e, hu, -, -⟩ := unpack_finite hx
  obtain ⟨n, f, hv, -, -⟩ := unpack_finite hy
  rw [← Rat.cast_mul, fmul_of_unpack hu hv]
  apply roundPack_correct_of_value
  rw [floatValue_of_unpack hu, floatValue_of_unpack hv, signFactor_xor, zpow_add₀ two_ne_zero, Nat.cast_mul]
  ring

theorem signBit_fmul {x y : B64} (hx : isFinite x = true) (hy : isFinite y = true) :
    signBit (fmul x y) = (signBit x ^^ signBit y) := by
  obtain ⟨m, e, hu, -, -⟩ := unpack_finite hx
  obtain ⟨n, f, hv, -, -⟩ := unpack_finite hy
  rw [fmul_of_unpack hu hv, signBit_roundPack]

/-- Infinity times a value that is no NaN: its sign's infinity, unless the value is a zero. -/
theorem fmul_infinity (a : Bool) {y : B64} (hn : isNaN y = false) (h0 : isZero y = false) :
    fmul (infinity a) y = infinity (a ^^ signBit y) ∧ fmul y (infinity a) = infinity (signBit y ^^ a) := by
  cases hf : isFinite y with
  | true =>
    obtain ⟨n, f, hv, -, -⟩ := unpack_finite hf
    simp [fmul, unpack_infinity, hv, sig_ne_zero hv h0]
  | false =>
    have hv : unpack y = .inf (signBit y) := by
      rw [eq_infinity hn hf, unpack_infinity, ← eq_infinity hn hf]
    simp [fmul, unpack_infinity, hv]

/-! ## Division -/

/-- A natural quotient with its rest is the real one. -/
theorem quotient_add_rest (m : ℕ) {n : ℕ} (hn : n ≠ 0) :
    ((m / n : ℕ) : ℝ) + ((m % n : ℕ) : ℝ) / n = m / n := by
  have hnR : (n : ℝ) ≠ 0 := by exact_mod_cast hn
  have h : (n : ℝ) * (m / n : ℕ) + (m % n : ℕ) = m := by exact_mod_cast Nat.div_add_mod m n
  field_simp
  linarith

theorem fdiv_correct {x y : B64} (hx : isFinite x = true) (hy : isFinite y = true) (h0 : isZero y = false) :
    CorrectlyRounded ((floatValue x : ℝ) / floatValue y) (fdiv x y) := by
  obtain ⟨m, e, hu, -, -⟩ := unpack_finite hx
  obtain ⟨n, f, hv, hnlt, -⟩ := unpack_finite hy
  have hn : n ≠ 0 := sig_ne_zero hv h0
  have hnR : (0 : ℝ) < n := by exact_mod_cast Nat.pos_of_ne_zero hn
  rw [fdiv_of_unpack hu hv hn, floatValue_of_unpack hu, floatValue_of_unpack hv]
  rcases Nat.eq_zero_or_pos m with rfl | hm
  · rw [Nat.zero_mul, Nat.zero_div, roundPack_zero]
    simpa using correctlyRounded_zero _
  have hwide : 2 ^ 53 ≤ m * 2 ^ 110 / n := by
    rw [Nat.le_div_iff_mul_le (Nat.pos_of_ne_zero hn)]
    omega
  have hrest : m * 2 ^ 110 % n < n := Nat.mod_lt _ (Nat.pos_of_ne_zero hn)
  have h := roundPack_correct (signBit x ^^ signBit y) (m := m * 2 ^ 110 / n) (e := e - f - 110)
    (sticky := decide (m * 2 ^ 110 % n ≠ 0)) (δ := ((m * 2 ^ 110 % n : ℕ) : ℝ) / n) (by omega)
    (by positivity) ((div_lt_one hnR).mpr (by exact_mod_cast hrest))
    (by rw [decide_eq_true_iff, div_pos_iff_of_pos_right hnR, Nat.cast_pos, Nat.pos_iff_ne_zero])
    (fun _ => lt_quantum_of_wide _ hwide)
  rw [quotient_add_rest _ hn, signFactor_xor, zpow_sub₀ two_ne_zero, zpow_sub₀ two_ne_zero] at h
  convert h using 1
  have hsy : (signFactor (signBit y) : ℝ) * signFactor (signBit y) = 1 := by
    exact_mod_cast signFactor_sq (signBit y)
  have hsy0 : (signFactor (signBit y) : ℝ) ≠ 0 := left_ne_zero_of_mul_eq_one hsy
  push_cast
  field_simp
  linear_combination (-(signFactor (signBit x) : ℝ) * 2 ^ 110) * hsy

theorem signBit_fdiv {x y : B64} (hx : isFinite x = true) (hy : isFinite y = true) (h0 : isZero y = false) :
    signBit (fdiv x y) = (signBit x ^^ signBit y) := by
  obtain ⟨m, e, hu, -, -⟩ := unpack_finite hx
  obtain ⟨n, f, hv, -, -⟩ := unpack_finite hy
  rw [fdiv_of_unpack hu hv (sig_ne_zero hv h0), signBit_roundPack]

theorem fdiv_zero_left {x y : B64} (hx : isZero x = true) (hy : isFinite y = true) (h0 : isZero y = false) :
    fdiv x y = zero (signBit x ^^ signBit y) := by
  obtain ⟨n, f, hv, -, -⟩ := unpack_finite hy
  rw [fdiv_of_unpack (unpack_of_isZero hx) hv (sig_ne_zero hv h0), Nat.zero_mul, Nat.zero_div, roundPack_zero]

theorem fdiv_infinity (a : Bool) {y : B64} (hy : isFinite y = true) :
    fdiv (infinity a) y = infinity (a ^^ signBit y) ∧ fdiv y (infinity a) = zero (signBit y ^^ a) := by
  obtain ⟨n, f, hv, -, -⟩ := unpack_finite hy
  simp [fdiv, unpack_infinity, hv]

theorem fdiv_zero_right {x y : B64} (hx : isFinite x = true) (h0 : isZero x = false) (hy : isZero y = true) :
    fdiv x y = infinity (signBit x ^^ signBit y) := by
  obtain ⟨m, e, hu, -, -⟩ := unpack_finite hx
  simp [fdiv, hu, unpack_of_isZero hy, sig_ne_zero hu h0]

/-! ## Square root -/

/-- The radicand is the value in units of an even power of two. -/
theorem radicand_value (m : ℕ) (e : ℤ) :
    (m : ℝ) * 2 ^ e = radicand m e * (2 ^ (e / 2 - 60)) ^ 2 := by
  have hodd : ((e % 2).toNat : ℤ) = e % 2 := Int.toNat_of_nonneg (Int.emod_nonneg e two_ne_zero)
  have hexp : e = e % 2 + 120 + (e / 2 - 60) * 2 := by omega
  have hsq : ((2 : ℝ) ^ (e / 2 - 60)) ^ 2 = 2 ^ ((e / 2 - 60) * 2) := by rw [zpow_mul]; norm_cast
  rw [hsq, radicand]
  conv_lhs => rw [hexp, zpow_add₀ two_ne_zero, zpow_add₀ two_ne_zero, ← hodd, zpow_natCast]
  push_cast
  rw [zpow_ofNat]
  ring

theorem sqrt_value (m : ℕ) (e : ℤ) :
    Real.sqrt (m * 2 ^ e) = Real.sqrt (radicand m e) * 2 ^ (e / 2 - 60) := by
  rw [radicand_value, Real.sqrt_mul (Nat.cast_nonneg _), Real.sqrt_sq (by positivity)]

theorem isqrt_radicand_wide {m : ℕ} (hm : m ≠ 0) (e : ℤ) : 2 ^ 53 ≤ isqrt (radicand m e) := by
  obtain ⟨-, hlt⟩ := isqrt_spec (radicand m e)
  have hbig : 2 ^ 120 ≤ radicand m e :=
    Nat.le_mul_of_pos_left _ (Nat.mul_pos (Nat.pos_of_ne_zero hm) (by positivity))
  by_contra hc
  have := Nat.mul_le_mul (show isqrt (radicand m e) + 1 ≤ 2 ^ 53 by omega)
    (show isqrt (radicand m e) + 1 ≤ 2 ^ 53 by omega)
  omega

/-- The real root lies from the integer root on and below its successor, and is it just for a square. -/
theorem isqrt_le_sqrt (n : ℕ) : (isqrt n : ℝ) ≤ Real.sqrt n ∧ Real.sqrt n < isqrt n + 1 ∧
    (isqrt n * isqrt n ≠ n ↔ (isqrt n : ℝ) < Real.sqrt n) := by
  obtain ⟨hle, hlt⟩ := isqrt_spec n
  refine ⟨Real.le_sqrt_of_sq_le ?_, (Real.sqrt_lt' (by positivity)).mpr ?_, ?_⟩
  · rw [pow_two]; exact_mod_cast hle
  · rw [pow_two]; exact_mod_cast hlt
  · rw [Real.lt_sqrt (Nat.cast_nonneg _), pow_two]
    norm_cast
    omega

theorem fsqrt_of_isZero {x : B64} (hx : isZero x = true) : fsqrt x = x := by
  rw [fsqrt, unpack_of_isZero hx]
  exact (eq_zero_of_isZero hx).symm

theorem fsqrt_correct {x : B64} (hx : isFinite x = true) (h : 0 ≤ floatValue x) :
    CorrectlyRounded (Real.sqrt (floatValue x : ℝ)) (fsqrt x) := by
  by_cases h0 : isZero x = true
  · rw [fsqrt_of_isZero h0, floatValue_of_isZero h0, Rat.cast_zero, Real.sqrt_zero, eq_zero_of_isZero h0]
    exact correctlyRounded_zero _
  have hs : signBit x = false := by
    by_contra hb
    rw [eq_zero_true hx (by simpa using hb) h] at h0
    exact h0 (isZero_zero true)
  obtain ⟨m, e, hu, -, -⟩ := unpack_finite hx
  rw [hs] at hu
  have hm : m ≠ 0 := fun hm => h0 ((sig_eq_zero_iff hu).mp hm)
  have hwide := isqrt_radicand_wide hm e
  have hval : Real.sqrt (floatValue x : ℝ) = Real.sqrt (radicand m e) * 2 ^ (e / 2 - 60) := by
    rw [← sqrt_value, floatValue_of_unpack hu]
    simp [signFactor]
  rw [hval, fsqrt_of_unpack hu hm]
  obtain ⟨hle, hlt, hne⟩ := isqrt_le_sqrt (radicand m e)
  have hr := roundPack_correct false (m := isqrt (radicand m e)) (e := e / 2 - 60)
    (sticky := decide (isqrt (radicand m e) * isqrt (radicand m e) ≠ radicand m e))
    (δ := Real.sqrt (radicand m e) - isqrt (radicand m e)) (by omega) (sub_nonneg.mpr hle)
    (by linarith) (by rw [decide_eq_true_iff, hne, sub_pos]) (fun _ => lt_quantum_of_wide _ hwide)
  simpa [signFactor] using hr

/-! ## Comparisons with infinities -/

theorem orderKey_infinity (a : Bool) : orderKey (infinity a) = if a then -(2047 * 2 ^ 52) else 2047 * 2 ^ 52 := by
  cases a <;> decide

theorem abs_orderKey_lt {x : B64} (hx : isFinite x = true) : |orderKey x| < 2047 * 2 ^ 52 := by
  have hexp := expField_lt x
  have hfrac := fracField_lt x
  rw [isFinite_iff] at hx
  have habs : |orderKey x| = magnitude x := by
    rw [orderKey_eq]
    cases signBit x <;> simp
  rw [habs, magnitude]
  omega

theorem compare_isNaN {x y : B64} (h : isNaN x = true ∨ isNaN y = true) :
    flt x y = false ∧ fle x y = false ∧ feq x y = false := by
  rcases h with h | h <;> simp [flt, fle, feq, h]

/-- Every finite value lies strictly between the infinities. -/
theorem compare_infinity (a : Bool) {x : B64} (hx : isFinite x = true) :
    flt x (infinity a) = !a ∧ fle x (infinity a) = !a ∧ feq x (infinity a) = false ∧
    flt (infinity a) x = a ∧ fle (infinity a) x = a ∧ feq (infinity a) x = false := by
  obtain ⟨hlo, hhi⟩ := abs_lt.mp (abs_orderKey_lt hx)
  simp only [flt, fle, feq, isNaN_eq_false_of_isFinite hx, isNaN_infinity, orderKey_infinity, Bool.not_false,
    Bool.true_and]
  cases a <;> simp <;> omega

theorem compare_infinities (a b : Bool) :
    flt (infinity a) (infinity b) = (a && !b) ∧ fle (infinity a) (infinity b) = (a || !b) ∧
    feq (infinity a) (infinity b) = (a == b) := by
  simp only [flt, fle, feq, isNaN_infinity, orderKey_infinity]
  cases a <;> cases b <;> decide

/-! ## Integers -/

/-- An integer below `2^53` in magnitude fits the significand as it stands. -/
theorem toF_exact {i : ℤ} (h : i.natAbs < 2 ^ 53) : isFinite (toF i) = true ∧ floatValue (toF i) = i := by
  rcases Nat.eq_zero_or_pos i.natAbs with h0 | hpos
  · obtain rfl : i = 0 := Int.natAbs_eq_zero.mp h0
    rw [toF_zero, floatValue_of_isZero isZero_posZero, Int.cast_zero]
    exact ⟨isFinite_posZero, rfl⟩
  have hq : quantum i.natAbs 0 ≤ 0 := by
    have hlog : Nat.log2 i.natAbs < 53 := (Nat.log2_lt hpos.ne').mpr h
    unfold quantum
    omega
  have hmag : magBits i.natAbs 0 false < 2047 * 2 ^ 52 := by
    obtain ⟨hsig, -, -⟩ := roundSig_bounds hpos 0 false
    unfold magBits
    omega
  obtain ⟨hfin, hval, -⟩ := roundPack_finite (neg := decide (i < 0)) hpos hmag
  have hsig : (roundSig i.natAbs 0 false : ℚ) * 2 ^ quantum i.natAbs 0 = i.natAbs := by
    have hR := roundSig_exact (sticky := false) hq
    rw [zpow_zero, mul_one] at hR
    apply Rat.cast_injective (α := ℝ)
    push_cast
    exact hR
  exact ⟨hfin, by rw [toF, hval, mul_assoc, hsig, signFactor_natAbs]⟩

/-- At `2^53` itself the last bit dropped is a zero. -/
theorem unpack_toF_two_pow_53 :
    unpack (toF (2 ^ 53)) = .fin false (2 ^ 52) 1 ∧ unpack (toF (-2 ^ 53)) = .fin true (2 ^ 52) 1 := by
  decide +kernel

/-! ## Operations on a NaN -/

theorem addUnpacked_nan {u v : Unpacked} (h : u = .nan ∨ v = .nan) (nan : B64) : addUnpacked u v nan = nan := by
  rcases h with rfl | rfl
  · rfl
  · cases u <;> rfl

theorem isNaN_fadd {x y : B64} (h : isNaN x = true ∨ isNaN y = true) : isNaN (fadd x y) = true := by
  rw [fadd, addUnpacked_nan (h.imp unpack_of_isNaN unpack_of_isNaN)]
  exact isNaN_nanResult _ _ _

theorem isNaN_fsub {x y : B64} (h : isNaN x = true ∨ isNaN y = true) : isNaN (fsub x y) = true := by
  rw [fsub, addUnpacked_nan (h.imp unpack_of_isNaN fun hy => by rw [unpack_of_isNaN hy, Unpacked.neg])]
  exact isNaN_nanResult _ _ _

theorem isNaN_fmul {x y : B64} (h : isNaN x = true ∨ isNaN y = true) : isNaN (fmul x y) = true := by
  rcases h with h | h
  · simp [fmul, unpack_of_isNaN h, isNaN_nanResult]
  · cases hu : unpack x <;> simp [fmul, hu, unpack_of_isNaN h, isNaN_nanResult]

theorem isNaN_fdiv {x y : B64} (h : isNaN x = true ∨ isNaN y = true) : isNaN (fdiv x y) = true := by
  rcases h with h | h
  · simp [fdiv, unpack_of_isNaN h, isNaN_nanResult]
  · cases hu : unpack x <;> simp [fdiv, hu, unpack_of_isNaN h, isNaN_nanResult]

theorem isNaN_fsqrt {x : B64} (h : isNaN x = true) : isNaN (fsqrt x) = true := by
  simp [fsqrt, unpack_of_isNaN h, isNaN_nanResult]

/-! ## Invalid operations -/

theorem isNaN_fmul_infinity_zero (a : Bool) {y : B64} (hy : isZero y = true) :
    isNaN (fmul (infinity a) y) = true ∧ isNaN (fmul y (infinity a)) = true := by
  simp [fmul, unpack_infinity, unpack_of_isZero hy, isNaN_nanResult]

theorem isNaN_fdiv_zeros {x y : B64} (hx : isZero x = true) (hy : isZero y = true) :
    isNaN (fdiv x y) = true := by
  simp [fdiv, unpack_of_isZero hx, unpack_of_isZero hy, isNaN_nanResult]

theorem isNaN_fdiv_infinities (a b : Bool) : isNaN (fdiv (infinity a) (infinity b)) = true := by
  simp [fdiv, unpack_infinity, isNaN_nanResult]

theorem fsqrt_infinity (a : Bool) :
    fsqrt (infinity a) = if a then nanResult .sqrt (infinity a) (infinity a) else infinity false := by
  rw [fsqrt, unpack_infinity]

theorem isNaN_fsqrt_of_neg {x : B64} (hx : isFinite x = true) (h : floatValue x < 0) :
    isNaN (fsqrt x) = true := by
  have hs : signBit x = true := by
    by_contra hb
    exact absurd (floatValue_nonneg hx (by simpa using hb)) (not_le.mpr h)
  obtain ⟨m, e, hu, -, -⟩ := unpack_finite hx
  rw [hs] at hu
  have hm : m ≠ 0 := fun h0 => h.ne (floatValue_of_isZero ((sig_eq_zero_iff hu).mp h0))
  simp [fsqrt, hu, hm, isNaN_nanResult]

/-! ## The obligations -/

/-- Settles O52: the aligned significands add exactly, and a difference is the sum with the negation. -/
theorem additionRoundsCorrectly : Obligations.AdditionRoundsCorrectly := by
  refine ⟨fun x y hx hy => ?_, fun a y hy => ?_, fun a => ⟨?_, ?_⟩⟩
  · exact ⟨fadd_correct hx hy, fsub_correct hx hy, fadd_of_sum_eq_zero hx hy, fsub_of_sub_eq_zero hx hy⟩
  · obtain ⟨hadd, hadd'⟩ := fadd_infinity a hy
    exact ⟨hadd, hadd', fsub_infinity a hy⟩
  · rw [fadd_infinities, if_pos rfl]
  · rw [fsub_infinities, if_pos (Bool.not_not a).symm]

/-- Settles O53: the product of the significands is exact and is rounded once. -/
theorem multiplicationRoundsCorrectly : Obligations.MultiplicationRoundsCorrectly := by
  refine ⟨fun x y hx hy => ⟨fmul_correct hx hy, signBit_fmul hx hy, fun h => ?_⟩,
    fun a y hn h0 => fmul_infinity a hn h0⟩
  rcases h with h | h
  · exact fmul_zero_left h hy
  · exact fmul_zero_right hx h

/-- Settles O54: the widened quotient keeps more than 53 bits, and its rest over the divisor is the dropped part. -/
theorem divisionRoundsCorrectly : Obligations.DivisionRoundsCorrectly :=
  ⟨fun _ _ hx hy h0 => ⟨fdiv_correct hx hy h0, signBit_fdiv hx hy h0, fun hz => fdiv_zero_left hz hy h0⟩,
    fun a _ hy => fdiv_infinity a hy, fun _ _ hx h0 hy => fdiv_zero_right hx h0 hy⟩

/-- Settles O55: the widened integer root keeps more than 53 bits, and what it lacks to the real root is the
dropped part. -/
theorem squareRootRoundsCorrectly : Obligations.SquareRootRoundsCorrectly :=
  ⟨fun _ hx h => fsqrt_correct hx h, fun _ hx => fsqrt_of_isZero hx, fsqrt_infinity false⟩

/-- Settles O56: the order keys are in the order of the values, and an infinity's key is past every finite one's. -/
theorem comparisonsCompareValues : Obligations.ComparisonsCompareValues := by
  refine ⟨fun x y => ⟨compare_isNaN, fun hx hy => ⟨flt_iff hx hy, fle_iff hx hy, feq_iff hx hy⟩,
    fun hx hy => ?_⟩, fun a x hx => compare_infinity a hx, compare_infinities⟩
  rw [feq_iff (isFinite_of_isZero hx) (isFinite_of_isZero hy), floatValue_of_isZero hx, floatValue_of_isZero hy]

/-- Settles O57: below `2^53` nothing is dropped, and `±2^53` is a power of two. -/
theorem integersConvertExactly : Obligations.IntegersConvertExactly := by
  intro i h
  rcases h.lt_or_eq with hlt | heq
  · exact toF_exact hlt
  obtain ⟨hp, hn⟩ := unpack_toF_two_pow_53
  obtain rfl | rfl : i = 2 ^ 53 ∨ i = -2 ^ 53 := by omega
  · exact ⟨isFinite_of_unpack hp, by rw [floatValue_of_unpack hp]; norm_num [signFactor]⟩
  · exact ⟨isFinite_of_unpack hn, by rw [floatValue_of_unpack hn]; norm_num [signFactor]⟩

/-- Settles O58: the masks of `fabs` and `fneg` leave the exponent's and the fraction's bits alone. -/
theorem signOperationsTouchOneBit : Obligations.SignOperationsTouchOneBit := fun x =>
  ⟨⟨signBit_fabs x, expField_fabs x, fracField_fabs x⟩, signBit_fneg x, expField_fneg x, fracField_fneg x⟩

/-- Settles O59: each invalid operation delivers `nanResult`, a NaN whatever the free one is. -/
theorem invalidOperationsGiveNaN : Obligations.InvalidOperationsGiveNaN := by
  refine ⟨fun x y h => ⟨isNaN_fadd h, isNaN_fsub h, isNaN_fmul h, isNaN_fdiv h⟩, fun x => isNaN_fsqrt,
    fun a => ⟨?_, ?_⟩, fun a y hy => isNaN_fmul_infinity_zero a hy, fun x y hx hy => isNaN_fdiv_zeros hx hy,
    isNaN_fdiv_infinities, fun x hx h => isNaN_fsqrt_of_neg hx h, ?_⟩
  · rw [fadd_infinities, if_neg (by simp)]
    exact isNaN_nanResult _ _ _
  · rw [fsub_infinities, if_neg (by simp)]
    exact isNaN_nanResult _ _ _
  · rw [fsqrt_infinity, if_pos rfl]
    exact isNaN_nanResult _ _ _

end Sys2Proof.Machine
end

section
/-! PROOFS. The state (spec/10_state.md): the invariant in its two phases, what a completing command and a completing
step leave unchanged, and what an accepted construction loads. -/

namespace Sys2Proof.Machine

/-! ## The invariant, phase by phase -/

/-- In the run phase the configuration and the outputs are legal, before it the ports are undriven. -/
theorem inv_iff (s : State) : s.Inv = true ↔
    (s.phase = .run ∧ s.cfg.wellFormed = true ∧ outputsLegal s.cfg s.out = true) ∨
      (s.phase = .construction ∧ s.out = .undriven) := by
  unfold State.Inv State.cfgLegal
  cases s.phase <;> simp

theorem inv_of_run {s : State} (hp : s.phase = .run) (hc : s.cfg.wellFormed = true)
    (ho : outputsLegal s.cfg s.out = true) : s.Inv = true :=
  (inv_iff s).mpr (.inl ⟨hp, hc, ho⟩)

theorem cfg_wellFormed_of_inv {s : State} (h : s.Inv = true) (hp : s.phase = .run) :
    s.cfg.wellFormed = true := by
  rcases (inv_iff s).mp h with ⟨-, hc, -⟩ | ⟨hp', -⟩
  · exact hc
  · rw [hp] at hp'; cases hp'

theorem outputsLegal_undriven (c : LimiterConfig) : outputsLegal c .undriven = true := rfl

/-- A reset of a legal configuration meets the invariant: nothing is driven. -/
theorem inv_resetBlock {s : State} (hp : s.phase = .run) (hc : s.cfg.wellFormed = true) :
    (resetBlock s).Inv = true :=
  inv_of_run hp hc (outputsLegal_undriven _)

theorem phase_of_ready {s : State} (h : s.ready = true) : s.phase = .run := by
  unfold State.ready at h
  simp only [Bool.and_eq_true, beq_iff_eq] at h
  exact h.1

/-! ## What a command drives is legal -/

/-- The EXACT result lies in the circle (R71): the root's square is at most what the direct component leaves. -/
theorem exact_in_circle {c : LimiterConfig} (h : c.wellFormed = true) (q d : Int) :
    exactQ c q d * exactQ c q d + exactD c d * exactD c d ≤ maxModule c * maxModule c := by
  obtain ⟨-, hroot, -⟩ := exactMq_spec h d
  have hsq : exactQ c q d * exactQ c q d = exactMq c d * exactMq c d := by
    rw [exactQ_cases]
    split
    · exact neg_mul_neg _ _
    · rfl
  omega

/-- R71: inside the circle the operands pass, and outside it EXACT mode gives its own result. -/
theorem limitResult_exact_in_circle {c : LimiterConfig} (h : c.wellFormed = true) (hm : c.limitMode = .exact)
    {q d : Int} {r : Int × Int} (hr : limitResult c q d = .ok r) :
    r.1 * r.1 + r.2 * r.2 ≤ maxModule c * maxModule c := by
  rcases limitResult_cases c q d with ⟨hin, e⟩ | ⟨-, ht, -⟩ | ⟨-, ht, -⟩ | ⟨-, -, e⟩
  · rw [e] at hr; obtain rfl := Except.ok.inj hr
    exact (inCircle_iff c q d).mp hin
  · rw [hm] at ht; cases ht
  · rw [hm] at ht; cases ht
  · rw [e] at hr; obtain rfl := Except.ok.inj hr
    exact exact_in_circle h q d

theorem outputsLegal_limit {c : LimiterConfig} (h : c.wellFormed = true) {q d : I16} {r : Int × Int}
    (hr : limitResult c (readInt16 q) (readInt16 d) = .ok r) :
    outputsLegal c (.limit ⟨int16Port r.1, int16Port r.2⟩) = true := by
  obtain ⟨hq, hd⟩ := limit_ports h hr
  cases hm : c.limitMode with
  | table => simp [outputsLegal, hm]
  | exact => simpa [outputsLegal, hm, magnitudeSq, hq, hd] using limitResult_exact_in_circle h hm hr

theorem outputsLegal_tick {p : TickIn} (h : tickValid p = true) (N : Numerics) (c : LimiterConfig) (c0 : B64) :
    outputsLegal c (.tick (tickOutputs N p c0)) = true := by
  obtain ⟨hs1, hs6⟩ := sectorCode_range
    (sectorOf (degreesOf N (angleOf N (descale p.alpha) (descale p.beta))))
  simp [outputsLegal, tickOutputs, levelOk_comparator h, hs1, hs6]

/-- Whatever command completes under a legal configuration, its outputs are legal. -/
theorem exec_next_outputsLegal {i : Instr} {s t : State} (h : exec i s = .next t) (hc : s.cfg.wellFormed = true) :
    outputsLegal t.cfg t.out = true := by
  rcases exec_next h with ⟨q, d, r, -, hr, rfl⟩ | ⟨q, d, theta, -, -, rfl⟩ | ⟨p, -, hv, rfl⟩
  · exact outputsLegal_limit hc hr
  · rfl
  · exact outputsLegal_tick hv _ _ _

/-! ## What a completing command leaves unchanged -/

/-- No command writes more than the ports and the carrier (R29, R34). -/
theorem exec_next_frame {i : Instr} {s t : State} (h : exec i s = .next t) : sameButPortsAndCarrier s t := by
  rcases exec_next h with ⟨q, d, r, -, -, rfl⟩ | ⟨q, d, theta, -, -, rfl⟩ | ⟨p, -, -, rfl⟩ <;>
    exact ⟨rfl, rfl, fun _ => rfl, rfl, rfl⟩

/-- "Only TICK writes" the carrier (R30): LIMIT and ROTATE only drive ports. -/
theorem exec_next_carrier {i : Instr} {s t : State} (h : exec i s = .next t) :
    t.carrier = s.carrier ∨ ∃ p, i = .tick p := by
  rcases exec_next h with ⟨q, d, r, -, -, rfl⟩ | ⟨q, d, theta, -, -, rfl⟩ | ⟨p, rfl, -, -⟩
  · exact .inl rfl
  · exact .inl rfl
  · exact .inr ⟨p, rfl⟩

/-- A command that completes keeps the invariant: phase and configuration stay, the new outputs are legal. -/
theorem exec_next_inv {i : Instr} {s t : State} (h : exec i s = .next t) (hp : s.phase = .run)
    (hc : s.cfg.wellFormed = true) : t.Inv = true := by
  obtain ⟨hphase, hcfg, -⟩ := exec_next_frame h
  exact inv_of_run (hphase.trans hp) (hcfg ▸ hc) (exec_next_outputsLegal h hc)

/-- The step lemma of the invariant: waiting, construction, reset and command each keep it. -/
theorem step_next_inv {s t : State} (hs : s.Inv = true) (h : step s = .next t) : t.Inv = true := by
  rcases step_next h with ⟨-, rfl⟩ | ⟨fs, rest, -, hf, rfl⟩ | ⟨rest, -, hp, rfl⟩ | ⟨c, rest, i, -, hr, -, he⟩
  · exact hs
  · exact inv_resetBlock rfl (configOf_wellFormed (failingCheck_eq_none.mp hf))
  · exact inv_resetBlock hp (cfg_wellFormed_of_inv hs hp)
  · have hp := phase_of_ready hr
    exact exec_next_inv he hp (cfg_wellFormed_of_inv hs hp)

/-! ## What an accepted construction loads -/

/-- The rows of R28's table all hold exactly if the loader's checks all pass. -/
theorem all_checkHolds_iff (fs : List (Nat × Int)) :
    (∀ c, CheckHolds fs c) ↔ ∀ c, passes fs c = true :=
  forall_congr' fun c => (passes_iff_checkHolds fs c).symm

/-- The field numbers of R21 are those R28 does not reserve; an accepted construction gives each of them once. -/
theorem fieldIs_of_accepted {fs : List (Nat × Int)} (h : ∀ c, CheckHolds fs c) {n : Nat}
    (hn : n ≤ 0x04 ∨ 0x40 ≤ n ∧ n ≤ 0x96) : ∃ v, FieldIs fs n v := by
  rcases hn with hn | ⟨hlo, hhi⟩
  · obtain ⟨v0, h0, -⟩ := h .maxModuleRange
    obtain ⟨-, v1, -, h1, -⟩ := h .maxVdRange
    obtain ⟨v2, h2, -⟩ := h .startIndexRange
    obtain ⟨v3, h3, -⟩ := h .modeValue
    obtain ⟨v4, h4, -⟩ := h .policyValue
    interval_cases n
    exacts [⟨v0, h0⟩, ⟨v1, h1⟩, ⟨v2, h2⟩, ⟨v3, h3⟩, ⟨v4, h4⟩]
  · obtain ⟨v, hv⟩ := h .tableLength (n - 0x40) (by omega)
    rw [Nat.add_sub_cancel' hlo] at hv
    exact ⟨v, hv⟩

/-- Every value given in an accepted construction is the one loaded: no field is reserved or given twice. -/
theorem loaded_of_mem {fs : List (Nat × Int)} (h : ∀ c, CheckHolds fs c) {n : Nat} {v : Int}
    (hv : (n, v) ∈ fs) : loaded fs n = v := by
  obtain ⟨hlow, hhigh⟩ := h .noReserved (n, v) hv
  obtain ⟨-, -, honce⟩ := fieldIs_of_accepted h (n := n) (by omega)
  exact loaded_of_fieldIs ⟨hv, honce⟩

theorem codeOfMode_modeOfCode {v : Int} (h0 : 0 ≤ v) (h1 : v ≤ 1) : codeOfMode (modeOfCode v) = v := by
  unfold modeOfCode
  split
  · exact Eq.symm ‹v = 0›
  · simp only [codeOfMode]; omega

theorem codeOfPolicy_policyOfCode {v : Int} (h0 : 0 ≤ v) (h1 : v ≤ 1) : codeOfPolicy (policyOfCode v) = v := by
  unfold policyOfCode
  split
  · exact Eq.symm ‹v = 0›
  · simp only [codeOfPolicy]; omega

/-- No register truncates the value loaded into it when every check passes. -/
theorem configOf_registers {fs : List (Nat × Int)} (h : ∀ c, passes fs c = true) :
    ((configOf fs).maxModule.toNat : Int) = loaded fs 0x00 ∧ ((configOf fs).maxVd.toNat : Int) = loaded fs 0x01 ∧
      ((configOf fs).startIndex.toNat : Int) = loaded fs 0x02 ∧
      codeOfMode (configOf fs).limitMode = loaded fs 0x03 ∧
      codeOfPolicy (configOf fs).indexPolicy = loaded fs 0x04 ∧
      ∀ i : Fin 87, tableRead (configOf fs) i = loaded fs (tableField i.val) := by
  obtain ⟨⟨hm0, hm⟩, ⟨hv0, hv⟩, ⟨hs0, hs⟩, ⟨hk0, hk⟩, ⟨hp0, hp⟩, -⟩ := loaded_ranges h
  exact ⟨toNat_ofInt_of_range (by omega) (by norm_num; omega), toNat_ofInt_of_range hv0 (by norm_num; omega),
    toNat_ofInt_of_range hs0 (by norm_num; omega), codeOfMode_modeOfCode hk0 hk, codeOfPolicy_policyOfCode hp0 hp,
    configOf_table h⟩

theorem step_construct_accepted {s : State} {fs : List (Nat × Int)} {rest : List HostAction}
    (hs : s.host = .construct fs :: rest) (h : ∀ c, passes fs c = true) :
    step s = .next (resetBlock { s with phase := .run, cfg := configOf fs, host := rest }) := by
  simp only [step_cons hs, takeAction, construct, failingCheck_eq_none.mpr h]

theorem step_construct_refused {s : State} {fs : List (Nat × Int)} {rest : List HostAction} {c : ConfigCheck}
    (hs : s.host = .construct fs :: rest) (h : failingCheck fs = some c) :
    step s = .refused (.illFormedConfig c) := by
  simp only [step_cons hs, takeAction, construct, h]

/-- A check that fails makes the loader name one that fails. -/
theorem exists_failingCheck {fs : List (Nat × Int)} {c : ConfigCheck} (h : passes fs c = false) :
    ∃ c', failingCheck fs = some c' ∧ passes fs c' = false := by
  cases hf : failingCheck fs with
  | none => rw [failingCheck_eq_none.mp hf c] at h; cases h
  | some c' => exact ⟨c', rfl, failingCheck_fails hf⟩

theorem passes_eq_false_iff (fs : List (Nat × Int)) (c : ConfigCheck) :
    passes fs c = false ↔ ¬CheckHolds fs c := by
  rw [← passes_iff_checkHolds, Bool.not_eq_true]

/-! ## The obligations -/

/-- Settles O50: the four things a step can do, each by what it drives and loads. -/
theorem invariantKeptByStep : Obligations.InvariantKeptByStep := fun _ _ hs h => step_next_inv hs h

/-- Settles O38: waiting, a reset and a command keep the configuration. -/
theorem configurationReadOnly : Obligations.ConfigurationReadOnly := by
  intro s t h hne
  rcases step_next h with ⟨-, rfl⟩ | ⟨fs, rest, hh, -⟩ | ⟨rest, -, -, rfl⟩ | ⟨c, rest, i, -, -, -, he⟩
  · exact absurd rfl hne
  · exact ⟨fs, rest, hh⟩
  · exact absurd rfl hne
  · obtain ⟨-, hcfg, -⟩ := exec_next_frame he
    exact absurd hcfg hne

/-- Settles O39: waiting keeps the carrier, and of the commands only TICK moves it. -/
theorem onlyTickMovesCarrier : Obligations.OnlyTickMovesCarrier := by
  intro s t h hne
  rcases step_next h with ⟨-, rfl⟩ | ⟨fs, rest, hh, -⟩ | ⟨rest, hh, -⟩ | ⟨c, rest, i, hh, -, hd, he⟩
  · exact absurd rfl hne
  · exact .inr (.inr ⟨fs, rest, hh⟩)
  · exact .inr (.inl ⟨rest, hh⟩)
  · rcases exec_next_carrier he with hkept | ⟨p, rfl⟩
    · exact absurd hkept hne
    · exact .inl ⟨c, rest, p, hh, hd⟩

/-- Settles O46: the checks bound every value within its register, and each field is given once. -/
theorem constructionLoadsRegisters : Obligations.ConstructionLoadsRegisters := by
  intro s fs rest hs h
  have hp : ∀ c, passes fs c = true := h.elim (all_checkHolds_iff fs).mp id
  exact ⟨fun _ _ => loaded_of_mem ((all_checkHolds_iff fs).mpr hp), _, step_construct_accepted hs hp, rfl,
    toF_zero.symm, rfl, configOf_registers hp⟩

/-- Settles O47: the refusal names a check the loader fails, whose row of R28 does not hold either. -/
theorem constructionRefusesIllFormed : Obligations.ConstructionRefusesIllFormed := by
  intro s fs rest c hs h
  have hc : passes fs c = false := h.elim (passes_eq_false_iff fs c).mpr id
  obtain ⟨c', hf, hc'⟩ := exists_failingCheck hc
  exact ⟨c', (passes_eq_false_iff fs c').mp hc', hc', step_construct_refused hs hf⟩

/-- Settles O44: `legalOr` makes the free configuration legal; the other fields are those of `State.reset`. -/
theorem stateAfterReset : Obligations.StateAfterReset :=
  ⟨reset_carrier, reset_mark, legalOr_wellFormed _, reset_phase, reset_out, reset_host⟩

/-- Settles O49: the run phase with a legal configuration and nothing driven. -/
theorem invariantAtReset : Obligations.InvariantAtReset :=
  inv_of_run reset_phase (legalOr_wellFormed _) (outputsLegal_undriven _)

end Sys2Proof.Machine
end

section
/-! PROOFS. Commands and the operands they read (spec/20_memory.md R44, R46): the outcome of LIMIT and ROTATE as a
function of what they read, and the command a step runs. -/

namespace Sys2Proof.Machine

/-! ## What completes, by what the command reads -/

/-- LIMIT completes by its integer result, which reads the configuration and no output port. -/
theorem exec_limit_of_ok {q d : I16} {s : State} {r : Int × Int}
    (h : limitResult s.cfg (readInt16 q) (readInt16 d) = .ok r) :
    exec (.limit q d) s = .next (drive (.limit ⟨int16Port r.1, int16Port r.2⟩) s) := by
  rw [exec_limit, execLimit_eq, h]

/-- ROTATE completes on finite operands, and reads nothing of the state. -/
theorem exec_rotate_of_check {q d theta : B64} (h : rotateCheck q d theta = none) (s : State) :
    exec (.rotate q d theta) s = .next (drive (.rotate (rotateOutputs numerics q d theta)) s) := by
  rw [exec_rotate, execRotate, h]

/-! ## The command a step runs -/

theorem step_of_decode {s : State} {c : Presented} {rest : List HostAction} {i : Instr}
    (hh : s.host = .command c :: rest) (hr : s.ready = true) (hd : decode c = .ok i) :
    step s = exec i { s with host := rest } := by
  rw [step_command hh hr, hd]

/-- A table word decodes as the word presented by itself does. -/
theorem decode_presentWord {nbits w : Nat} {i : Instr} (h : decodeTableWord nbits w = some i) :
    decode (presentWord nbits w) = .ok i := by
  unfold decodeTableWord at h
  split at h
  · rwa [← Option.some.inj h]
  · cases h

@[simp] theorem withFetchWord_host (s : State) (nbits w : Nat) :
    (s.withFetchWord nbits w).host = .command (presentWord nbits w) :: s.host := rfl

@[simp] theorem withFetchWord_ready (s : State) (nbits w : Nat) :
    (s.withFetchWord nbits w).ready = s.ready := rfl

/-- Taking the placed word from the host's list gives back the state it was placed in. -/
@[simp] theorem withFetchWord_host_restored (s : State) (nbits w : Nat) :
    { s.withFetchWord nbits w with host := s.host } = s := rfl

/-! ## The obligations -/

/-- Settles O37: LIMIT and ROTATE read no output port, and driving a port twice is driving it once. -/
theorem otherCommandsIdempotent : Obligations.OtherCommandsIdempotent := by
  intro i s t hi h
  rcases exec_next h with ⟨q, d, r, rfl, hr, rfl⟩ | ⟨q, d, theta, rfl, hc, rfl⟩ | ⟨p, rfl, -, -⟩
  · rw [exec_limit_of_ok (by rwa [drive_cfg]), drive_drive]
  · rw [exec_rotate_of_check hc, drive_drive]
  · exact absurd rfl hi

/-- Settles O4: a placed word is the next command of an otherwise equal state. -/
theorem stepRunsDecodedCommand : Obligations.StepRunsDecodedCommand := by
  refine ⟨fun s c rest i hr hh hd _ => step_of_decode hh hr hd, fun s nbits w i hr h => ?_⟩
  rw [step_of_decode (withFetchWord_host s nbits w) (by rwa [withFetchWord_ready]) (decode_presentWord h),
    withFetchWord_host_restored]

end Sys2Proof.Machine
end

section
/-! PROOFS. Encoding (spec/30_encoding.md): which presented commands decode to an instruction, what a reserved word
does to a run, and PIPE on a ready block as three executions. -/

namespace Sys2Proof

/-! ## Decoding -/

/-- Each command's word decodes to that command, with the operands its own ports hold (R51, R53). -/
theorem decode_word (k : Command) (p : InputPorts) : decode ⟨Command.word k, p⟩ = .ok (readOperands k p) :=
  decode_of_word (decodeWord_word k)

/-- What decodes to an instruction has its word and holds its operands on the ports of its command. -/
theorem decode_eq_ok_iff (c : Presented) (i : Instr) :
    decode c = .ok i ↔ c.word = (encode i).word ∧ readOperands i.command c.ports = i := by
  rw [encode_word]
  constructor
  · intro h
    cases hw : decodeWord c.word with
    | none => rw [decode_of_reserved hw] at h; cases h
    | some k =>
      rw [decode_of_word hw] at h
      obtain rfl := Except.ok.inj h
      rw [readOperands_command]
      exact ⟨(decodeWord_eq_some _ _).mp hw, rfl⟩
  · rintro ⟨hw, hi⟩
    rw [decode_of_word ((decodeWord_eq_some _ _).mpr hw), hi]

theorem decode_encode (i : Instr) : decode (encode i) = .ok i :=
  (decode_eq_ok_iff _ _).mpr ⟨rfl, readOperands_encode i⟩

end Sys2Proof

namespace Sys2Proof.Machine

/-! ## A reserved word -/

/-- Recording a stop takes the action that met it from the host's list. -/
theorem recordStop_of_host {s : State} {a : HostAction} {rest : List HostAction} (h : s.host = a :: rest)
    (r : Stop) : recordStop r s = { s with host := rest, mark := some r, out := .undriven } := by
  rw [recordStop, h, List.tail_cons]

theorem step_of_reserved {s : State} {c : Presented} {rest : List HostAction} (hh : s.host = .command c :: rest)
    (hr : s.ready = true) (hw : decodeWord c.word = none) :
    step s = .refused (.reservedCommand c.word) := by
  rw [step_command hh hr, decode_of_reserved hw]

theorem advance_of_reservedCommand {s : State} {w : CmdWord} (h : step s = .refused (.reservedCommand w)) :
    advance s = recordStop (.refused (.reservedCommand w)) s := by
  rw [advance, h]
  rfl

/-! ## PIPE -/

/-- A command issued to a ready block is executed: its encoding decodes to it, and it is gone from the list. -/
theorem issue_of_ready {s : State} (hr : s.ready = true) (i : Instr) : issue i s = exec i s :=
  step_of_decode (s := { s with host := .command (encode i) :: s.host }) rfl hr (decode_encode i)

/-- No command that completes records a stop or leaves the run phase. -/
theorem exec_next_ready {i : Instr} {s t : State} (h : exec i s = .next t) (hr : s.ready = true) :
    t.ready = true := by
  obtain ⟨hphase, -, -, hmark, -⟩ := exec_next_frame h
  rwa [State.ready, State.unmarked, hphase, hmark]

section
variable {p : PipeIn} {s s1 s2 : State} {o1 : LimitOut} {o2 : RotateOut} {f : Fault} (hr : s.ready = true)
include hr

theorem pipe_of_limit_fault (h : exec (.limit p.q p.d) s = .fault f) : pipe p s = .fault f := by
  simp only [pipe, issue_of_ready hr, h]

variable (h1 : exec (.limit p.q p.d) s = .next s1) (ho1 : s1.out = .limit o1)
include h1 ho1

theorem pipe_of_rotate_fault (h : exec (pipeRotate p o1) s1 = .fault f) : pipe p s = .fault f := by
  simp only [pipe, issue_of_ready hr, h1, ho1, issue_of_ready (exec_next_ready h1 hr), h]

theorem pipe_of_rotate_next (h2 : exec (pipeRotate p o1) s1 = .next s2) (ho2 : s2.out = .rotate o2) :
    pipe p s = exec (pipeTick p o2) s2 := by
  have hr1 := exec_next_ready h1 hr
  simp only [pipe, issue_of_ready hr, h1, ho1, issue_of_ready hr1, h2, ho2,
    issue_of_ready (exec_next_ready h2 hr1)]

end

/-! ## The obligations -/

/-- Settles O3: an instruction's own word and operands decode to it, and nothing else does. -/
theorem decodeAndEncodeAgree : Obligations.DecodeAndEncodeAgree :=
  ⟨fun i _ => decode_encode i, decode_eq_ok_iff⟩

/-- Settles O2: a word other than the three spells no command, whatever is on the ports. -/
theorem reservedWordsRefused : Obligations.ReservedWordsRefused := by
  intro w ports s rest h1 h2 h3 hr hh
  have hstep : step s = .refused (.reservedCommand w) :=
    step_of_reserved hh hr ((decodeWord_eq_none w).mpr ⟨h1, h2, h3⟩)
  exact ⟨hstep, by rw [advance_of_reservedCommand hstep, recordStop_of_host hh]⟩

/-- Settles O43: a completing command leaves the block ready for the next of the three. -/
theorem pipeIsThreeCommands : Obligations.PipeIsThreeCommands := by
  intro p s hr
  refine ⟨fun f h => pipe_of_limit_fault hr h, fun s1 o1 h1 ho1 => ⟨fun f h => ?_, fun s2 o2 h2 ho2 => ?_⟩⟩
  · exact pipe_of_rotate_fault hr h1 ho1 h
  · exact pipe_of_rotate_next hr h1 ho1 h2 ho2

/-- Settles O1: the three literals are the words of the three commands. -/
theorem commandWordsDecode : Obligations.CommandWordsDecode := fun p =>
  ⟨decode_word .limit p, decode_word .rotate p, decode_word .tick p⟩

end Sys2Proof.Machine
end

section
/-! PROOFS. LIMIT (spec/40_limiter.md): the sum of squares and its bucket, the table's order, and the outcome of each
branch of the limiter on the ports. -/

namespace Sys2Proof.Machine

/-! ## The sum of squares of two int16 operands (R61, R63) -/

theorem readInt16_sq_le (x : I16) : readInt16 x * readInt16 x ≤ 2 ^ 30 := by
  obtain ⟨hlo, hhi⟩ := readInt16_range x
  nlinarith

/-- Every operand but the least has a magnitude of at most 32767, whose square is 2^30 - 65535. -/
theorem readInt16_sq_le_of_ne {x : I16} (hx : readInt16 x ≠ -32768) : readInt16 x * readInt16 x ≤ 2 ^ 30 - 65535 := by
  obtain ⟨hlo, hhi⟩ := readInt16_range x
  have hlo' : -32767 ≤ readInt16 x := by omega
  nlinarith

theorem sumSq_le (q d : I16) : sumSq (readInt16 q) (readInt16 d) ≤ 2 ^ 31 := by
  have := sumSq_cast (readInt16 q) (readInt16 d)
  have := readInt16_sq_le q
  have := readInt16_sq_le d
  omega

/-- One component that is not -32768 already takes 65535 off the top value. -/
theorem sumSq_le_of_ne {q d : I16} (h : ¬(readInt16 q = -32768 ∧ readInt16 d = -32768)) :
    sumSq (readInt16 q) (readInt16 d) ≤ 2 ^ 31 - 65535 := by
  have hs := sumSq_cast (readInt16 q) (readInt16 d)
  by_cases hq : readInt16 q = -32768
  · have := readInt16_sq_le q
    have := readInt16_sq_le_of_ne fun hd => h ⟨hq, hd⟩
    omega
  · have := readInt16_sq_le_of_ne hq
    have := readInt16_sq_le d
    omega

theorem sumSq_eq_top_iff (q d : I16) :
    sumSq (readInt16 q) (readInt16 d) = 2 ^ 31 ↔ readInt16 q = -32768 ∧ readInt16 d = -32768 := by
  constructor
  · intro htop
    by_contra hne
    have := sumSq_le_of_ne hne
    omega
  · rintro ⟨hq, hd⟩
    rw [hq, hd]
    rfl

theorem rawIndex_range {c : LimiterConfig} (h : c.wellFormed = true) (q d : I16) :
    -128 ≤ rawIndex c (readInt16 q) (readInt16 d) ∧ rawIndex c (readInt16 q) (readInt16 d) ≤ 128 := by
  obtain ⟨-, -, hstart, -⟩ := (wellFormed_iff c).mp h
  have hs := sumSq_cast (readInt16 q) (readInt16 d)
  have hle := sumSq_le q d
  rw [rawIndex_eq]
  omega

/-! ## The table (R28, R64) -/

/-- The neighbour check of R28 orders any two entries. -/
theorem tableRead_antitone {c : LimiterConfig} (h : c.wellFormed = true) : Antitone (tableRead c) := by
  obtain ⟨-, -, -, -, hmono⟩ := (wellFormed_iff c).mp h
  exact Fin.antitone_iff_succ_le.mpr fun i => Int.ofNat_le.mpr (hmono i)

/-- Below the last entry the index is at least `raw`: CLAMP raises it to 0, and WRAP8 adds 256 to a negative one. -/
theorem raw_le_of_tableIndex {c : LimiterConfig} {raw : Int} {i : Fin 87} (hi : tableIndex c raw = some i)
    (hraw : raw < 256) (h86 : i.val < 86) : raw ≤ i.val := by
  unfold tableIndex at hi
  split at hi
  · obtain rfl := Option.some.inj hi
    simp only [clampIndex] at h86 ⊢
    omega
  · unfold wrapIndex modNat at hi
    split at hi
    · obtain rfl := Option.some.inj hi
      dsimp only
      omega
    · cases hi

theorem wrapIndex_eq_some {raw : Int} (h : (raw % 256).toNat < 87) : wrapIndex raw = some ⟨(raw % 256).toNat, h⟩ :=
  dif_pos h

theorem wrapIndex_eq_none {raw : Int} (h : 87 ≤ raw % 256) : wrapIndex raw = none :=
  dif_neg (by unfold modNat; omega)

/-! ## The branches, on the ports -/

section
variable {q d : I16} {s : State}

/-- LIMIT faults as its integer result does. -/
theorem exec_limit_of_error {f : Fault} (h : limitResult s.cfg (readInt16 q) (readInt16 d) = .error f) :
    exec (.limit q d) s = .fault f := by
  rw [exec_limit, execLimit_eq, h]

/-- A completing LIMIT under a legal configuration only drives its ports, which read as its integer result. -/
theorem exec_limit_reads (hc : s.cfg.wellFormed = true) {r : Int × Int}
    (h : limitResult s.cfg (readInt16 q) (readInt16 d) = .ok r) :
    ∃ o : LimitOut, exec (.limit q d) s = .next { s with out := .limit o } ∧
      o.q_out.toInt = r.1 ∧ o.d_out.toInt = r.2 :=
  ⟨_, exec_limit_of_ok h, limit_ports hc h⟩

end

section
variable {c : LimiterConfig} {q d : Int}

/-- R62: on or inside the circle the operands pass. -/
theorem limitResult_inside (h : q * q + d * d ≤ maxModule c * maxModule c) : limitResult c q d = .ok (q, d) :=
  if_pos ((inCircle_iff c q d).mpr h)

variable (hout : maxModule c * maxModule c < q * q + d * d)
include hout

theorem inCircle_eq_false : inCircle c q d = false :=
  Bool.eq_false_iff.mpr fun hin => not_le.mpr hout ((inCircle_iff c q d).mp hin)

/-- R66: the entry at the index scales both components. -/
theorem limitResult_table (hm : c.limitMode = .table) {i : Fin 87} (hi : tableIndex c (rawIndex c q d) = some i) :
    limitResult c q d = .ok (scale q (tableRead c i), scale d (tableRead c i)) := by
  simp [limitResult, inCircle_eq_false hout, hm, hi]

/-- R65: without an index LIMIT faults. -/
theorem limitResult_table_fault (hm : c.limitMode = .table) (hi : tableIndex c (rawIndex c q d) = none) :
    limitResult c q d = .error (.tableIndexOutOfRange (rawIndex c q d)) := by
  simp [limitResult, inCircle_eq_false hout, hm, hi]

/-- R67, R68: the direct component is held or saturated, and the quadrature one solved for. -/
theorem limitResult_exact (hm : c.limitMode = .exact) : limitResult c q d = .ok (exactQ c q d, exactD c d) := by
  simp [limitResult, inCircle_eq_false hout, hm]

end

/-- What an integer result can be: the operands, the scaled operands, or EXACT mode's solution. -/
theorem limitResult_ok {c : LimiterConfig} {q d : Int} {r : Int × Int} (hr : limitResult c q d = .ok r) :
    (q * q + d * d ≤ maxModule c * maxModule c ∧ r = (q, d)) ∨
    (c.limitMode = .table ∧ ∃ i, tableIndex c (rawIndex c q d) = some i ∧
      r = (scale q (tableRead c i), scale d (tableRead c i))) ∨
    (c.limitMode = .exact ∧ r = (exactQ c q d, exactD c d)) := by
  rcases limitResult_cases c q d with ⟨hin, e⟩ | ⟨-, hm, i, hi, e⟩ | ⟨-, -, -, e⟩ | ⟨-, hm, e⟩ <;> rw [e] at hr
  · exact .inl ⟨(inCircle_iff c q d).mp hin, (Except.ok.inj hr).symm⟩
  · exact .inr (.inl ⟨hm, i, hi, (Except.ok.inj hr).symm⟩)
  · cases hr
  · exact .inr (.inr ⟨hm, (Except.ok.inj hr).symm⟩)

/-- EXACT mode never faults (R122). -/
theorem limitResult_exact_ok {c : LimiterConfig} (hm : c.limitMode = .exact) (q d : Int) :
    ∃ r, limitResult c q d = .ok r := by
  rcases le_or_gt (q * q + d * d) (maxModule c * maxModule c) with hin | hout
  · exact ⟨_, limitResult_inside hin⟩
  · exact ⟨_, limitResult_exact hout hm⟩

/-- R66 on the ports, for the entry `k` at the index the policy gives. -/
theorem exec_limit_scales {q d : I16} {s : State} {k : BitVec 16} {n : Nat} (hc : s.cfg.wellFormed = true)
    (hout : maxModule s.cfg * maxModule s.cfg < readInt16 q * readInt16 q + readInt16 d * readInt16 d)
    (hm : s.cfg.limitMode = .table) (hk : s.cfg.table[n]? = some k)
    (hi : ∀ hn : n < 87, tableIndex s.cfg (rawIndex s.cfg (readInt16 q) (readInt16 d)) = some ⟨n, hn⟩) :
    ∃ o : LimitOut, exec (.limit q d) s = .next { s with out := .limit o } ∧
      o.q_out.toInt = scale (readInt16 q) k.toNat ∧ o.d_out.toInt = scale (readInt16 d) k.toNat := by
  obtain ⟨hn, hread⟩ := tableRead_of_getElem? hk
  rw [← hread]
  exact exec_limit_reads hc (limitResult_table hout hm (hi hn))

theorem exactD_of_le {c : LimiterConfig} {d : Int} (h : (d.natAbs : Int) ≤ maxVd c) : exactD c d = d := if_pos h

theorem exactD_of_gt {c : LimiterConfig} {d : Int} (h : maxVd c < d.natAbs) :
    exactD c d = if d < 0 then -maxVd c else maxVd c := if_neg (not_le.mpr h)

/-- The quadrature magnitude has the sign of `q` (R69). -/
theorem exactQ_mul_nonneg {c : LimiterConfig} (h : c.wellFormed = true) (q d : Int) : 0 ≤ exactQ c q d * q := by
  obtain ⟨hmq, -⟩ := exactMq_spec h d
  rw [exactQ_cases]
  split
  · nlinarith
  · nlinarith

/-! ## TABLE mode and the circle (R72) -/

/-- R72's `Smax(i)`: the largest sum of squares that reaches the index `i`. -/
def smax (c : LimiterConfig) (i : Nat) : Nat :=
  if i < 86 then min (2 ^ 31) ((c.startIndex.toNat + i + 1) * 2 ^ 24 - 1) else 2 ^ 31

theorem sumSq_le_smax {c : LimiterConfig} (h : c.wellFormed = true) {q d : I16} {i : Fin 87}
    (hi : tableIndex c (rawIndex c (readInt16 q) (readInt16 d)) = some i) :
    sumSq (readInt16 q) (readInt16 d) ≤ smax c i := by
  have htop := sumSq_le q d
  obtain ⟨-, hraw⟩ := rawIndex_range h q d
  unfold smax
  split
  · next h86 =>
    have hle := raw_le_of_tableIndex hi (by omega) h86
    rw [rawIndex_eq, ← sumSq_cast] at hle
    omega
  · exact htop

/-- The scaled vector, times 2^15, is no longer than the operand vector times the entry. -/
theorem scale_sumSq_le (q d k : Int) :
    2 ^ 30 * (scale q k * scale q k + scale d k * scale d k) ≤ k ^ 2 * sumSq q d := by
  rw [sumSq_cast]
  have hq := scale_sq_le (v := q) (k := k)
  have hd := scale_sq_le (v := d) (k := k)
  linarith

theorem scale_in_circle {c : LimiterConfig} (h : c.wellFormed = true) {q d : I16} {i : Fin 87}
    (hi : tableIndex c (rawIndex c (readInt16 q) (readInt16 d)) = some i)
    (hcond : (c.table[i.val]).toNat ^ 2 * smax c i ≤ 2 ^ 30 * c.maxModule.toNat ^ 2) :
    scale (readInt16 q) (tableRead c i) * scale (readInt16 q) (tableRead c i) +
      scale (readInt16 d) (tableRead c i) * scale (readInt16 d) (tableRead c i) ≤ maxModule c * maxModule c := by
  have hs : (sumSq (readInt16 q) (readInt16 d) : Int) ≤ smax c i := Int.ofNat_le.mpr (sumSq_le_smax h hi)
  have hk : tableRead c i ^ 2 * smax c i ≤ 2 ^ 30 * maxModule c ^ 2 := by
    unfold tableRead maxModule
    exact_mod_cast hcond
  have hscale := scale_sumSq_le (readInt16 q) (readInt16 d) (tableRead c i)
  have hmul := mul_le_mul_of_nonneg_left hs (sq_nonneg (tableRead c i))
  linarith

/-! ## The obligations -/

/-- Settles O6: each square is at most 2^30, and at most 2^30 - 65535 for an operand other than -32768. -/
theorem sumOfSquaresRange : Obligations.SumOfSquaresRange := fun q d =>
  ⟨sumSq_cast _ _, sumSq_le q d, sumSq_eq_top_iff q d, sumSq_le_of_ne⟩

/-- Settles O7: the fast path looks at neither the mode nor the policy. -/
theorem limitInsideCircleUnchanged : Obligations.LimitInsideCircleUnchanged := by
  intro q d s hin
  rw [exec_limit_of_ok (limitResult_inside hin), int16Port_readInt16, int16Port_readInt16]
  rfl

/-- Settles O8: the bucket is the sum of squares, at most 2^31, without its low 24 bits. -/
theorem bucketIndexRange : Obligations.BucketIndexRange := by
  intro q d c hc
  have hs : (sumSq (readInt16 q) (readInt16 d) : Int) = q.toInt * q.toInt + d.toInt * d.toInt := sumSq_cast _ _
  have hle := sumSq_le q d
  exact ⟨rawIndex_eq _ _ _, by omega, by omega, by omega, rawIndex_range hc q d⟩

/-- Settles O9: under CLAMP every raw index gives an entry. -/
theorem limitTableClampScales : Obligations.LimitTableClampScales := by
  intro q d s k hc hout hm hp hk
  refine exec_limit_scales hc hout hm hk fun hn => ?_
  rw [tableIndex, hp, rawIndex_eq]
  rfl

/-- Settles O10: under WRAP8 the remainder is the index where the table has an entry. -/
theorem limitTableWrapScales : Obligations.LimitTableWrapScales := by
  intro q d s k hc hout hm hp hk
  refine exec_limit_scales hc hout hm hk fun hn => ?_
  rw [tableIndex, hp, rawIndex_eq]
  exact wrapIndex_eq_some hn

/-- Settles O11: the remainder is no index, and the fault records the index before it. -/
theorem limitTableWrapFaults : Obligations.LimitTableWrapFaults := by
  intro q d s hout hm hp hidx
  rw [exec_limit_of_error (limitResult_table_fault hout hm ?_), rawIndex_eq]
  · rfl
  · rw [tableIndex, hp, rawIndex_eq]
    exact wrapIndex_eq_none hidx

/-- Settles O12: the held `d` crosses its port unchanged, and `mq` is the root of what it leaves. -/
theorem limitExactHoldsDirectAxis : Obligations.LimitExactHoldsDirectAxis := by
  intro q d s hc hout hm hd
  have hD : exactD s.cfg (readInt16 d) = readInt16 d := exactD_of_le (Int.ofNat_le.mpr hd)
  have hr := limitResult_exact (q := readInt16 q) (d := readInt16 d) hout hm
  obtain ⟨hq, -⟩ := limit_ports hc hr
  obtain ⟨hmq, hroot, hroot'⟩ := exactMq_spec hc (readInt16 d)
  rw [hD] at hroot hroot'
  refine ⟨_, _, ?_, hmq, hroot, hroot', hq⟩
  rw [exec_limit_of_ok hr, hD, int16Port_readInt16]
  rfl

/-- Settles O13: the saturated component has the square of MAX_VD, whatever its sign. -/
theorem limitExactSaturatesDirectAxis : Obligations.LimitExactSaturatesDirectAxis := by
  intro q d s hc hout hm hd
  have hD : exactD s.cfg (readInt16 d) = _ := exactD_of_gt (Int.ofNat_lt.mpr hd)
  have hsq : exactD s.cfg (readInt16 d) * exactD s.cfg (readInt16 d) = maxVd s.cfg * maxVd s.cfg := by
    rw [hD]
    split
    · exact neg_mul_neg _ _
    · rfl
  obtain ⟨hmq, hroot, hroot'⟩ := exactMq_spec hc (readInt16 d)
  rw [hsq] at hroot hroot'
  obtain ⟨o, hexec, hq, hd'⟩ := exec_limit_reads hc (limitResult_exact hout hm)
  exact ⟨o, _, hexec, hd'.trans hD, hmq, hroot, hroot', hq⟩

/-- Settles O15: each branch keeps the signs, and an entry below 2^15 lengthens no component. -/
theorem limitKeepsSignsAndFits : Obligations.LimitKeepsSignsAndFits := by
  intro q d s r hc hr
  refine ⟨limitResult_bounds hc hr, exec_limit_reads hc hr, ?_⟩
  rcases limitResult_ok hr with ⟨-, rfl⟩ | ⟨-, i, -, rfl⟩ | ⟨hm, rfl⟩
  · exact ⟨mul_self_nonneg _, mul_self_nonneg _, fun _ => ⟨le_rfl, le_rfl⟩⟩
  · have h0 := tableRead_nonneg s.cfg i
    have hle := tableRead_le hc i
    exact ⟨scale_mul_nonneg h0, scale_mul_nonneg h0, fun _ => ⟨scale_natAbs_le h0 hle, scale_natAbs_le h0 hle⟩⟩
  · obtain ⟨-, -, hd⟩ := exactD_bounds s.cfg d.toInt
    exact ⟨exactQ_mul_nonneg hc _ _, hd, fun ht => by rw [hm] at ht; cases ht⟩

/-- Settles O16: an EXACT result exists, lies in the circle, and is what the ports read. -/
theorem limitExactStaysInCircle : Obligations.LimitExactStaysInCircle := by
  intro q d s hc hm
  obtain ⟨r, hr⟩ := limitResult_exact_ok hm (readInt16 q) (readInt16 d)
  obtain ⟨o, hexec, hq, hd⟩ := exec_limit_reads hc hr
  refine ⟨o, hexec, ?_⟩
  rw [hq, hd]
  exact limitResult_exact_in_circle hc hm hr

/-- Settles O17: outside the circle the entry at index `i` meets a sum of squares of at most `Smax(i)`. -/
theorem limitTableStaysInCircle : Obligations.LimitTableStaysInCircle := by
  intro q d s t o hc hm hcond hexec ho
  obtain ⟨r, hr, rfl⟩ := execLimit_next hexec
  obtain rfl := OutputPorts.limit.inj ho
  obtain ⟨hq, hd⟩ := limit_ports hc hr
  change readInt16 (int16Port r.1) * readInt16 (int16Port r.1) +
    readInt16 (int16Port r.2) * readInt16 (int16Port r.2) ≤ maxModule s.cfg * maxModule s.cfg
  rw [hq, hd]
  rcases limitResult_ok hr with ⟨hin, rfl⟩ | ⟨-, i, hi, rfl⟩ | ⟨hm', -⟩
  · exact hin
  · exact scale_in_circle hc hi (hcond i _ (Vector.getElem?_eq_getElem i.isLt))
  · rw [hm] at hm'; cases hm'

/-- Settles O18: by the order of the entries, and the range check. -/
theorem tableEndsAreExtreme : Obligations.TableEndsAreExtreme := fun c i hc =>
  ⟨tableRead_antitone hc (Fin.le_last i), tableRead_antitone hc (Fin.zero_le i), tableRead_nonneg c i,
    tableRead_le hc i⟩

/-- Settles O19: of the state, LIMIT's integer result reads the configuration only. -/
theorem limitDependsOnConfigOnly : Obligations.LimitDependsOnConfigOnly := by
  intro q d s s' hcfg
  cases hr : limitResult s.cfg (readInt16 q) (readInt16 d) with
  | error f => exact .inl ⟨f, exec_limit_of_error hr, exec_limit_of_error (hcfg ▸ hr)⟩
  | ok r => exact .inr ⟨_, exec_limit_of_ok hr, exec_limit_of_ok (hcfg ▸ hr)⟩

/-- Settles O35: LIMIT and ROTATE only drive ports. -/
theorem limitAndRotateFrame : Obligations.LimitAndRotateFrame := by
  intro i s t hi h
  rcases exec_next h with ⟨q, d, r, -, -, rfl⟩ | ⟨q, d, theta, -, -, rfl⟩ | ⟨p, rfl, -, -⟩
  · exact ⟨rfl, rfl, fun _ => rfl, rfl, rfl, rfl⟩
  · exact ⟨rfl, rfl, fun _ => rfl, rfl, rfl, rfl⟩
  · rcases hi with hi | hi <;> cases hi

end Sys2Proof.Machine
end

section
/-! PROOFS. ROTATE (spec/41_rotator.md): its operand check and the formula it completes with, on any state and at the
angle +0.0. -/

namespace Sys2Proof.Machine

/-! ## A sum with a zero (R9) -/

/-- Adding a zero keeps the number; of two zeros, only the sign can change. -/
theorem floatValue_fadd_isZero_right {x y : B64} (hx : isFinite x = true) (hy : isZero y = true) :
    floatValue (fadd x y) = floatValue x := by
  cases h0 : isZero x with
  | true => rw [fadd_zeros h0 hy, floatValue_of_isZero (isZero_zero _), floatValue_of_isZero h0]
  | false => rw [fadd_zero_right hx h0 hy]

theorem floatValue_fadd_isZero_left {x y : B64} (hx : isZero x = true) (hy : isFinite y = true) :
    floatValue (fadd x y) = floatValue y := by
  cases h0 : isZero y with
  | true => rw [fadd_zeros hx h0, floatValue_of_isZero (isZero_zero _), floatValue_of_isZero h0]
  | false => rw [fadd_zero_left hx hy h0]

theorem isZero_fmul_posZero {x : B64} (hx : isFinite x = true) : isZero (fmul x posZero) = true := by
  rw [fmul_zero_right hx isZero_posZero]
  exact isZero_zero _

section
variable {q d theta : B64}

/-! ## The operand check -/

theorem rotateCheck_of_not_finite (h : isFinite q = false ∨ isFinite d = false ∨ isFinite theta = false) :
    rotateCheck q d theta = some (.nonFiniteOperand .rotate) := by
  unfold rotateCheck
  rcases h with h | h | h <;> simp [h]

/-- ROTATE faults as its operand check does. -/
theorem exec_rotate_of_check_fault {f : Fault} (h : rotateCheck q d theta = some f) (s : State) :
    exec (.rotate q d theta) s = .fault f := by
  rw [exec_rotate, execRotate, h]
  rfl

/-! ## The angle +0.0, whose sine is +0.0 and cosine 1.0 (R107 (c)) -/

theorem floatValue_rotateAlpha_posZero (hq : isFinite q = true) (hd : isFinite d = true) :
    floatValue (rotateAlpha numerics q d posZero) = floatValue q := by
  change floatValue (fadd (fmul q (numCos posZero)) (fmul d (numSin posZero))) = floatValue q
  rw [numCos_zero, numSin_zero, fmul_one hq, floatValue_fadd_isZero_right hq (isZero_fmul_posZero hd)]

theorem floatValue_rotateBeta_posZero (hq : isFinite q = true) (hd : isFinite d = true) :
    floatValue (rotateBeta numerics q d posZero) = floatValue d := by
  have hnq : isFinite (fneg q) = true := by rw [isFinite_fneg, hq]
  change floatValue (fadd (fmul (fneg q) (numSin posZero)) (fmul d (numCos posZero))) = floatValue d
  rw [numCos_zero, numSin_zero, fmul_one hd, floatValue_fadd_isZero_left (isZero_fmul_posZero hnq) hd]

end

/-! ## The obligations -/

/-- Settles O21: one product of each sum is a zero, the other the operand itself. -/
theorem rotateByZeroIsIdentity : Obligations.RotateByZeroIsIdentity := by
  intro q d s hq hd
  rw [toF_zero]
  exact ⟨_, exec_rotate_of_check (rotateCheck_none.mpr ⟨hq, hd, isFinite_posZero⟩) s,
    floatValue_rotateAlpha_posZero hq hd, floatValue_rotateBeta_posZero hq hd⟩

/-- Settles O22: the check and the outputs are functions of the operands, and driving ports changes nothing else. -/
theorem rotateDependsOnOperandsOnly : Obligations.RotateDependsOnOperandsOnly := by
  intro q d theta s s'
  cases hc : rotateCheck q d theta with
  | some f => exact .inl ⟨f, exec_rotate_of_check_fault hc s, exec_rotate_of_check_fault hc s'⟩
  | none => exact .inr ⟨_, exec_rotate_of_check hc s, exec_rotate_of_check hc s'⟩

/-- Settles O20: by the operand check's two answers. -/
theorem rotateResult : Obligations.RotateResult := fun _ _ _ s =>
  ⟨fun h => exec_rotate_of_check_fault (rotateCheck_of_not_finite h) s,
    fun hq hd ht => exec_rotate_of_check (rotateCheck_none.mpr ⟨hq, hd, ht⟩) s⟩

end Sys2Proof.Machine
end

section
/-! PROOFS. TICK's sector encoder (spec/42_encoder.md R91, R92): the wedges as intervals in the order of the values,
which exclude each other and cover (-180, 180]. -/

namespace Sys2Proof.Machine

/-! ## The wedges by their place in the order of the values (R91) -/

theorem flt_iff_orderKey {x y : B64} :
    flt x y = true ↔ isNaN x = false ∧ isNaN y = false ∧ orderKey x < orderKey y := by
  simp [flt, and_assoc]

theorem fle_iff_orderKey {x y : B64} :
    fle x y = true ↔ isNaN x = false ∧ isNaN y = false ∧ orderKey x ≤ orderKey y := by
  simp [fle, and_assoc]

theorem feq_iff_orderKey {x y : B64} :
    feq x y = true ↔ isNaN x = false ∧ isNaN y = false ∧ orderKey x = orderKey y := by
  simp [feq, and_assoc]

theorem isNaN_toF (i : ℤ) : isNaN (toF i) = false := isNaN_roundPack _ _ _ _

theorem orderKey_toF_lt {i j : ℤ} (hi : i.natAbs < 2 ^ 53) (hj : j.natAbs < 2 ^ 53) (h : i < j) :
    orderKey (toF i) < orderKey (toF j) := by
  obtain ⟨hfi, hvi⟩ := toF_exact hi
  obtain ⟨hfj, hvj⟩ := toF_exact hj
  rw [orderKey_lt_iff hfi hfj, hvi, hvj]
  exact_mod_cast h

/-- The bounds of the wedges are in the order of their degrees. -/
theorem orderKey_wedgeBounds :
    orderKey (toF (-180)) < orderKey (toF (-120)) ∧ orderKey (toF (-120)) < orderKey (toF (-60)) ∧
    orderKey (toF (-60)) < orderKey (toF 0) ∧ orderKey (toF 0) < orderKey (toF 60) ∧
    orderKey (toF 60) < orderKey (toF 120) ∧ orderKey (toF 120) < orderKey (toF 180) := by
  refine ⟨?_, ?_, ?_, ?_, ?_, ?_⟩ <;> exact orderKey_toF_lt (by decide) (by decide) (by decide)

/-- R91's rows on the place `k` of a `deg` in the order of the values. -/
def InWedge (k : ℤ) : Sector → Prop
  | .s1 => orderKey (toF 0) ≤ k ∧ k ≤ orderKey (toF 60)
  | .s2 => orderKey (toF 60) < k ∧ k ≤ orderKey (toF 120)
  | .s3 => orderKey (toF 120) < k ∧ k ≤ orderKey (toF 180)
  | .s4 => orderKey (toF (-180)) < k ∧ k < orderKey (toF (-120))
  | .s5 => orderKey (toF (-120)) ≤ k ∧ k < orderKey (toF (-60))
  | .s6 => orderKey (toF (-60)) ≤ k ∧ k < orderKey (toF 0)

theorem wedge_iff (deg : B64) (n : Sector) :
    wedge deg n = true ↔ isNaN deg = false ∧ InWedge (orderKey deg) n := by
  cases n <;> simp only [wedge, InWedge, Bool.and_eq_true, flt_iff_orderKey, fle_iff_orderKey, isNaN_toF] <;> tauto

/-- In two wedges at once, a place would have a bound above it and below it. -/
theorem inWedge_unique {k : ℤ} {n n' : Sector} (h : InWedge k n) (h' : InWedge k n') : n = n' := by
  have hb := orderKey_wedgeBounds
  cases n <;> cases n' <;> simp only [InWedge, reduceCtorEq] at h h' ⊢ <;> omega

/-- The wedges cover the half-open circle, and nothing beyond it. -/
theorem exists_inWedge_iff (k : ℤ) :
    (∃ n, InWedge k n) ↔ orderKey (toF (-180)) < k ∧ k ≤ orderKey (toF 180) := by
  obtain ⟨h1, h2, h3, h4, h5, h6⟩ := orderKey_wedgeBounds
  constructor
  · rintro ⟨n, h⟩
    cases n <;> simp only [InWedge] at h <;> omega
  · rintro ⟨hlo, hhi⟩
    rcases lt_or_ge k (orderKey (toF (-120))) with ha | ha
    · exact ⟨.s4, hlo, ha⟩
    rcases lt_or_ge k (orderKey (toF (-60))) with hb | hb
    · exact ⟨.s5, ha, hb⟩
    rcases lt_or_ge k (orderKey (toF 0)) with hc | hc
    · exact ⟨.s6, hb, hc⟩
    rcases le_or_gt k (orderKey (toF 60)) with hd | hd
    · exact ⟨.s1, hc, hd⟩
    rcases le_or_gt k (orderKey (toF 120)) with he | he
    · exact ⟨.s2, hd, he⟩
    · exact ⟨.s3, he, hhi⟩

theorem exists_wedge_iff (deg : B64) :
    (∃ n, wedge deg n = true) ↔ flt (toF (-180)) deg = true ∧ fle deg (toF 180) = true := by
  simp only [wedge_iff, exists_and_left, exists_inWedge_iff, flt_iff_orderKey, fle_iff_orderKey, isNaN_toF]
  tauto

theorem wedge_unique {deg : B64} {n n' : Sector} (h : wedge deg n = true) (h' : wedge deg n' = true) : n = n' :=
  inWedge_unique ((wedge_iff deg n).mp h).2 ((wedge_iff deg n').mp h').2

/-! ## The sector of a `deg` -/

/-- The sector's own wedge holds, or none does and the sector is the fallback (R92). -/
theorem sectorOf_cases (deg : B64) :
    wedge deg (sectorOf deg) = true ∨ (sectorOf deg = .s1 ∧ ∀ n, wedge deg n = false) := by
  unfold sectorOf
  rw [← toF_zero]
  split_ifs with h1 h2 h3 h4 h5 h6
  · exact .inl h1
  · exact .inl h2
  · exact .inl h3
  · exact .inl h4
  · exact .inl h5
  · exact .inl h6
  · refine .inr ⟨rfl, fun n => Bool.eq_false_iff.mpr ?_⟩
    cases n <;> assumption

/-- The rows exclude each other, so the first that holds is the only one. -/
theorem sectorOf_of_wedge {deg : B64} {n : Sector} (h : wedge deg n = true) : sectorOf deg = n := by
  rcases sectorOf_cases deg with hs | ⟨-, hnone⟩
  · exact wedge_unique hs h
  · exact absurd h (Bool.eq_false_iff.mp (hnone n))

theorem sectorOf_of_no_wedge {deg : B64} (h : ∀ n, wedge deg n = false) : sectorOf deg = .s1 := by
  rcases sectorOf_cases deg with hs | ⟨hs, -⟩
  · exact absurd hs (Bool.eq_false_iff.mp (h _))
  · exact hs

/-! ## Zeros of either sign -/

theorem orderKey_of_isZero {x : B64} (h : isZero x = true) : orderKey x = 0 := by
  rw [eq_zero_of_isZero h]
  cases signBit x <;> decide

theorem feq_of_isZero {x y : B64} (hx : isZero x = true) (hy : isZero y = true) : feq x y = true :=
  feq_iff_orderKey.mpr ⟨isNaN_eq_false_of_isFinite (isFinite_of_isZero hx),
    isNaN_eq_false_of_isFinite (isFinite_of_isZero hy), by rw [orderKey_of_isZero hx, orderKey_of_isZero hy]⟩

theorem wedge_of_isZero {deg : B64} (h : isZero deg = true) : wedge deg .s1 = true := by
  obtain ⟨-, -, -, hb, -⟩ := orderKey_wedgeBounds
  have hz : orderKey (toF 0) = 0 := by rw [toF_zero, orderKey_of_isZero isZero_posZero]
  rw [wedge_iff, InWedge, orderKey_of_isZero h]
  exact ⟨isNaN_eq_false_of_isFinite (isFinite_of_isZero h), by omega, by omega⟩

/-! ## Outside the wedges (R92) -/

/-- A value that equals a finite value other than a zero is that value. -/
theorem eq_of_feq {x y : B64} (hy : isFinite y = true) (h0 : floatValue y ≠ 0) (h : feq x y = true) : x = y := by
  have hx : isFinite x = true := by
    by_contra hf
    rw [eq_infinity (feq_iff_orderKey.mp h).1 (Bool.eq_false_iff.mpr hf)] at h
    obtain ⟨-, -, -, -, -, hne⟩ := compare_infinity (signBit x) hy
    exact Bool.eq_false_iff.mp hne h
  have hv := (feq_iff hx hy).mp h
  exact eq_of_floatValue_eq hx hy hv (hv ▸ h0)

/-- What lies in no wedge (R92): the lower end of the circle, and what is outside it. -/
theorem outside_of_no_wedge {deg : B64} (hn : isNaN deg = false) (h : ∀ n, wedge deg n = false) :
    deg = toF (-180) ∨ flt deg (toF (-180)) = true ∨ flt (toF 180) deg = true := by
  obtain ⟨hfin, hval⟩ := toF_exact (i := -180) (by decide)
  rcases lt_trichotomy (orderKey deg) (orderKey (toF (-180))) with hlt | heq | hgt
  · exact .inr (.inl (flt_iff_orderKey.mpr ⟨hn, isNaN_toF _, hlt⟩))
  · exact .inl (eq_of_feq hfin (by rw [hval]; norm_num) (feq_iff_orderKey.mpr ⟨hn, isNaN_toF _, heq⟩))
  · refine .inr (.inr (flt_iff_orderKey.mpr ⟨isNaN_toF _, hn, ?_⟩))
    by_contra hle
    obtain ⟨n, hw⟩ := (exists_inWedge_iff _).mpr ⟨hgt, not_lt.mp hle⟩
    exact Bool.eq_false_iff.mp (h n) ((wedge_iff deg n).mpr ⟨hn, hw⟩)

/-! ## The obligations -/

/-- Settles O25: by the places of the bounds in the order of the values. -/
theorem sectorWedges : Obligations.SectorWedges := fun deg =>
  ⟨fun _ => sectorOf_of_wedge, sectorOf_of_no_wedge, fun _ _ => wedge_unique,
    fun hlo hhi => (exists_wedge_iff deg).mpr ⟨hlo, hhi⟩, fun h => sectorOf_of_wedge (wedge_of_isZero h)⟩

/-- Settles O26: the wedges cover (-180, 180] and no more, and -180.0 is not above itself. -/
theorem sectorFallback : Obligations.SectorFallback := by
  refine ⟨fun deg h => ⟨sectorOf_of_no_wedge h, fun hn => outside_of_no_wedge hn h⟩, fun n => ?_⟩
  rw [Bool.eq_false_iff]
  intro hw
  obtain ⟨hlt, -⟩ := (exists_wedge_iff _).mp ⟨n, hw⟩
  exact lt_irrefl _ (flt_iff_orderKey.mp hlt).2.2

end Sys2Proof.Machine
end

section
/-! PROOFS. TICK, the SVPWM encoder (spec/42_encoder.md): the outcome by its operand check, the degrees of a legal
vector, the zero vector whatever the numerics, and the carrier over a list of TICKs. -/

namespace Sys2Proof.Machine

/-! ## Finite operands stay off the NaNs -/

theorem isNaN_fmul_of_finite {x y : B64} (hx : isFinite x = true) (hy : isFinite y = true) :
    isNaN (fmul x y) = false := by
  obtain ⟨m, e, hu, -, -⟩ := unpack_finite hx
  obtain ⟨n, f, hv, -, -⟩ := unpack_finite hy
  rw [fmul_of_unpack hu hv, isNaN_roundPack]

/-- A quotient of a value that is no NaN by a finite positive one is no NaN: infinity over it is an infinity. -/
theorem isNaN_fdiv_of_finitePositive {x y : B64} (hx : isNaN x = false) (hy : finitePositive y = true) :
    isNaN (fdiv x y) = false := by
  cases hf : isFinite x with
  | true =>
    obtain ⟨m, e, hu, -, -⟩ := unpack_finite hf
    obtain ⟨n, f, hv, hn⟩ := unpack_of_finitePositive hy
    rw [fdiv_of_unpack hu hv hn, isNaN_roundPack]
  | false =>
    rw [eq_infinity hx hf, (fdiv_infinity _ (finitePositive_iff.mp hy).1).1, isNaN_infinity]

theorem isFinite_toF {i : ℤ} (h : i.natAbs < 2 ^ 53) : isFinite (toF i) = true := (toF_exact h).1

theorem finitePositive_toF {i : ℤ} (hpos : 0 < i) (h : i.natAbs < 2 ^ 53) : finitePositive (toF i) = true := by
  obtain ⟨hfin, hval⟩ := toF_exact h
  exact finitePositive_iff.mpr ⟨hfin, by rw [hval]; exact_mod_cast hpos⟩

/-- Dividing by a whole number cannot overflow. -/
theorem isFinite_fdiv_toF {x : B64} (hx : isFinite x = true) {i : ℤ} (hpos : 0 < i) (h : i.natAbs < 2 ^ 53) :
    isFinite (fdiv x (toF i)) = true := by
  obtain ⟨hfin, hval⟩ := toF_exact h
  refine ((fdiv_correct hx hfin (isZero_of_finitePositive (finitePositive_toF hpos h))).1 ?_).1
  have hi : (1 : ℝ) ≤ i := by exact_mod_cast hpos
  calc |(floatValue x : ℝ) / floatValue (toF i)| = |(floatValue x : ℝ)| / i := by
        rw [hval, Rat.cast_intCast, abs_div, abs_of_nonneg (zero_le_one.trans hi)]
    _ ≤ |(floatValue x : ℝ)| := div_le_self (abs_nonneg _) hi
    _ < overflowBound := abs_floatValue_lt hx

theorem isFinite_descale {x : B64} (hx : isFinite x = true) : isFinite (descale x) = true :=
  isFinite_fdiv_toF hx (by decide) (by decide)

theorem isFinite_angleOf {a b : B64} (ha : isFinite a = true) (hb : isFinite b = true) :
    isFinite (angleOf numerics a b) = true := by
  unfold angleOf
  split
  · exact isFinite_posZero
  · exact isFinite_numAtan2 hb ha

theorem isNaN_degreesOf {ang : B64} (h : isFinite ang = true) : isNaN (degreesOf numerics ang) = false :=
  isNaN_fdiv_of_finitePositive (isNaN_fmul_of_finite h (isFinite_toF (by decide))) finitePositive_numPi64

/-! ## The command (R85, R86) -/

theorem exec_tick_of_valid {p : TickIn} (h : tickValid p = true) (s : State) :
    exec (.tick p) s = .next (writeCarrier (carrierNext s.carrier p.secondaryInput p.dt)
      (drive (.tick (tickOutputs numerics p s.carrier)) s)) := execTick_valid h s

/-- TICK faults as its operand check does. -/
theorem exec_tick_of_check_fault {p : TickIn} {f : Fault} (h : tickCheck p = some f) (s : State) :
    exec (.tick p) s = .fault f := by
  rw [exec_tick, execTick, tickWith, h]
  rfl

/-! ## A zero vector (R88, R89) -/

theorem isZero_fdiv_left {x y : B64} (hx : isZero x = true) (hy : finitePositive y = true) :
    isZero (fdiv x y) = true := by
  rw [fdiv_zero_left hx (finitePositive_iff.mp hy).1 (isZero_of_finitePositive hy)]
  exact isZero_zero _

theorem isZero_descale {x : B64} (hx : isZero x = true) : isZero (descale x) = true :=
  isZero_fdiv_left hx (finitePositive_toF (by decide) (by decide))

theorem isZero_fmul_left {x y : B64} (hx : isZero x = true) (hy : isFinite y = true) : isZero (fmul x y) = true := by
  rw [fmul_zero_left hx hy]
  exact isZero_zero _

theorem isZero_fmul_right {x y : B64} (hx : isFinite x = true) (hy : isZero y = true) : isZero (fmul x y) = true := by
  rw [fmul_zero_right hx hy]
  exact isZero_zero _

theorem isZero_fabs {x : B64} (hx : isZero x = true) : isZero (fabs x) = true := by
  rwa [isZero_iff, expField_fabs, fracField_fabs, ← isZero_iff]

theorem isZero_fneg {x : B64} (hx : isZero x = true) : isZero (fneg x) = true := by
  rwa [isZero_iff, expField_fneg, fracField_fneg, ← isZero_iff]

/-- A difference with a zero does not overflow. -/
theorem isFinite_fsub_isZero_left {x y : B64} (hx : isZero x = true) (hy : isFinite y = true) :
    isFinite (fsub x y) = true := by
  refine ((fsub_correct (isFinite_of_isZero hx) hy).1 ?_).1
  rw [floatValue_of_isZero hx, Rat.cast_zero, zero_sub, abs_neg]
  exact abs_floatValue_lt hy

theorem isFinite_fsub_isZero_right {x y : B64} (hx : isFinite x = true) (hy : isZero y = true) :
    isFinite (fsub x y) = true := by
  refine ((fsub_correct hx (isFinite_of_isZero hy)).1 ?_).1
  rw [floatValue_of_isZero hy, Rat.cast_zero, sub_zero]
  exact abs_floatValue_lt hx

theorem fsub_zero_right {x y : B64} (hx : isFinite x = true) (h0 : isZero x = false) (hy : isZero y = true) :
    fsub x y = x := by
  rw [fsub_eq_fadd_fneg hx (isFinite_of_isZero hy), fadd_zero_right hx h0 (isZero_fneg hy)]

theorem isZero_one : isZero one = false := by decide +kernel

theorem angleOf_isZero {a b : B64} (ha : isZero a = true) (hb : isZero b = true) (N : Numerics) :
    angleOf N a b = posZero := by
  rw [angleOf, feq_of_isZero ha isZero_posZero, feq_of_isZero hb isZero_posZero]
  rfl

theorem isZero_modIndex {a b : B64} (ha : isZero a = true) (hb : isZero b = true) :
    isZero (modIndex a b) = true := by
  have hsum : isZero (fadd (fmul a a) (fmul b b)) = true := by
    rw [fadd_zeros (isZero_fmul_left ha (isFinite_of_isZero ha)) (isZero_fmul_left hb (isFinite_of_isZero hb))]
    exact isZero_zero _
  rwa [modIndex, fsqrt_of_isZero hsum]

theorem isZero_scaledIndex {m : B64} (hm : isZero m = true) : isZero (scaledIndex numerics m) = true :=
  isZero_fmul_right (finitePositive_iff.mp finitePositive_numK2Sqrt3).1 hm

theorem sectorOf_degreesOf_posZero : sectorOf (degreesOf numerics posZero) = .s1 := by
  have hprod : isZero (fmul posZero (toF 180)) = true :=
    isZero_fmul_left isZero_posZero (isFinite_toF (by decide))
  have hdeg : isZero (degreesOf numerics posZero) = true := isZero_fdiv_left hprod finitePositive_numPi64
  exact sectorOf_of_wedge (wedge_of_isZero hdeg)

section
variable {m : B64} (hm : isZero m = true) (n : Sector)
include hm

/-- At the angle +0.0 the bracket of R94 is a sine less a zero, so a zero index makes the fraction a zero. -/
theorem isZero_del1 : isZero (del1 numerics n posZero m) = true := by
  refine isZero_fmul_left (isZero_scaledIndex hm) ?_
  change isFinite (fsub (fmul (numCos posZero) (numSin _)) (fmul (numSin posZero) (numCos _))) = true
  rw [numCos_zero, numSin_zero, one_fmul (isFinite_numSin _)]
  exact isFinite_fsub_isZero_right (isFinite_numSin _) (isZero_fmul_left isZero_posZero (isFinite_numCos _))

theorem isZero_del2 : isZero (del2 numerics n posZero m) = true := by
  refine isZero_fmul_left (isZero_scaledIndex hm) ?_
  change isFinite (fsub (fmul (numSin posZero) (numCos _)) (fmul (numCos posZero) (numSin _))) = true
  rw [numCos_zero, numSin_zero, one_fmul (isFinite_numSin _)]
  exact isFinite_fsub_isZero_left (isZero_fmul_left isZero_posZero (isFinite_numCos _)) (isFinite_numSin _)

end

/-- With no active time the zero vector takes the whole period (R96). -/
theorem del3_isZero {d1 d2 : B64} (h1 : isZero d1 = true) (h2 : isZero d2 = true) : del3 d1 d2 = one := by
  rw [del3, fsub_zero_right isFinite_one isZero_one (isZero_fabs h1),
    fsub_zero_right isFinite_one isZero_one (isZero_fabs h2)]

/-! ## Comparators (R100) -/

theorem comparator_of_fgt {busVoltage c0 x : B64} (h : fgt x c0 = true) : comparator busVoltage c0 x = busVoltage :=
  if_pos h

theorem comparator_of_not_fgt {busVoltage c0 x : B64} (h : fgt x c0 = false) :
    comparator busVoltage c0 x = posZero := by
  rw [comparator, h]
  rfl

/-- A comparator does not see the sign of a zero, so adding a zero to the threshold changes nothing. -/
theorem comparator_fadd_isZero_left {z x : B64} (hz : isZero z = true) (hx : isFinite x = true)
    (busVoltage c0 : B64) : comparator busVoltage c0 (fadd z x) = comparator busVoltage c0 x := by
  cases h0 : isZero x with
  | false => rw [fadd_zero_left hz hx h0]
  | true =>
    have hs : isZero (fadd z x) = true := by rw [fadd_zeros hz h0]; exact isZero_zero _
    simp only [comparator, fgt, flt, isNaN_eq_false_of_isFinite (isFinite_of_isZero hs),
      isNaN_eq_false_of_isFinite hx, orderKey_of_isZero hs, orderKey_of_isZero h0]

/-- With no active time every threshold is the half period, but for the sign of a zero. -/
theorem comparator_gateTimes {T1 T2 Tz : B64} (h1 : isZero T1 = true) (h2 : isZero T2 = true)
    (hz : isFinite Tz = true) (busVoltage c0 : B64) :
    comparator busVoltage c0 (gateTimes T1 T2 Tz).ta = comparator busVoltage c0 (fdiv Tz (toF 2)) ∧
    comparator busVoltage c0 (gateTimes T1 T2 Tz).tc = comparator busVoltage c0 (fdiv Tz (toF 2)) := by
  have htd : isFinite (fdiv Tz (toF 2)) = true := isFinite_fdiv_toF hz (by decide) (by decide)
  have h12 : isZero (fadd T1 T2) = true := by rw [fadd_zeros h1 h2]; exact isZero_zero _
  exact ⟨comparator_fadd_isZero_left h12 htd _ _, comparator_fadd_isZero_left h2 htd _ _⟩

/-- The outputs of a zero vector: the angle +0.0 in sector 1, two zero active times and the whole period. -/
theorem tickOutputs_zeroVector {p : TickIn} (ha : isZero p.alpha = true) (hb : isZero p.beta = true)
    (hTs : isFinite p.carrierPeriod = true) (c0 : B64) :
    ∃ T1 T2, isZero T1 = true ∧ isZero T2 = true ∧ tickOutputs numerics p c0 =
      ⟨comparator p.busVoltage c0 (gateTimes T1 T2 p.carrierPeriod).ta,
        comparator p.busVoltage c0 (gateTimes T1 T2 p.carrierPeriod).tc,
        comparator p.busVoltage c0 (gateTimes T1 T2 p.carrierPeriod).td,
        posZero, 1, c0, T1, T2, p.carrierPeriod⟩ := by
  have hang := angleOf_isZero (isZero_descale ha) (isZero_descale hb) numerics
  have hm := isZero_modIndex (isZero_descale ha) (isZero_descale hb)
  have hd1 := isZero_del1 hm .s1
  have hd2 := isZero_del2 hm .s1
  refine ⟨_, _, isZero_fmul_left hd1 hTs, isZero_fmul_left hd2 hTs, ?_⟩
  simp only [tickOutputs, hang, sectorOf_degreesOf_posZero, del3_isZero hd1 hd2, one_fmul hTs, thresholds, sectorCode]

/-! ## A list of TICKs (R102, R145) -/

/-- A ready block takes a valid TICK as its next action. -/
theorem advance_of_tick {s : State} {p : TickIn} {rest : List HostAction} (hr : s.ready = true)
    (hh : s.host = .command (encode (.tick p)) :: rest) (h : tickValid p = true) :
    advance s = writeCarrier (carrierNext s.carrier p.secondaryInput p.dt)
      (drive (.tick (tickOutputs numerics p s.carrier)) { s with host := rest }) := by
  rw [advance, step_of_decode hh hr (decode_encode _), exec_tick_of_valid h]
  rfl

/-! ## The obligations -/

/-- Settles O27: a finite angle times 180.0 may overflow, and an infinity over PI64 is an infinity. -/
theorem degreesAreNoNaN : Obligations.DegreesAreNoNaN := by
  intro p h
  obtain ⟨ha, hb, -⟩ := tickValid_finite h
  exact isNaN_degreesOf (isFinite_angleOf (isFinite_descale ha) (isFinite_descale hb))

/-- Settles O32: the index is a zero, so both fractions are, and the thresholds are the half period but for a zero's
sign. -/
theorem zeroVectorTick : Obligations.ZeroVectorTick := by
  intro p s h ha hb
  obtain ⟨-, -, -, hTs, -⟩ := tickValid_finite h
  obtain ⟨T1, T2, h1, h2, hout⟩ := tickOutputs_zeroVector ha hb hTs s.carrier
  obtain ⟨hta, htc⟩ := comparator_gateTimes h1 h2 hTs p.busVoltage s.carrier
  refine ⟨_, _, exec_tick_of_valid h s, rfl, ?_⟩
  rw [hout, toF_zero]
  exact ⟨rfl, rfl, h1, h2, rfl, hta, htc.trans hta.symm, hta.symm⟩

/-- Settles O33: the check reads the operands, and the outputs and the new carrier the old carrier too. -/
theorem tickDependsOnCarrierOnly : Obligations.TickDependsOnCarrierOnly := by
  intro p s s' hc
  cases hp : tickCheck p with
  | some f => exact .inl ⟨f, exec_tick_of_check_fault hp s, exec_tick_of_check_fault hp s'⟩
  | none =>
    have hv := tickCheck_none.mp hp
    exact .inr ⟨_, _, exec_tick_of_valid hv s, hc ▸ exec_tick_of_valid hv s'⟩

/-- Settles O34: by induction on the list, from the carrier and the ready state each TICK leaves. -/
theorem carrierAdvancesOncePerTick : Obligations.CarrierAdvancesOncePerTick := by
  intro ps
  induction ps with
  | nil => exact fun s rest hr hh _ => ⟨rfl, rfl, hh, hr⟩
  | cons p ps ih =>
    intro s rest hr hh hv
    have hadv := advance_of_tick hr hh (hv p List.mem_cons_self)
    have htail := ih (advance s) rest (by rw [hadv]; exact hr) (by rw [hadv]; rfl)
      fun p' hp' => hv p' (List.mem_cons_of_mem p hp')
    rw [hadv] at htail
    rw [List.length_cons, advanceN, hadv]
    exact htail

/-- Settles O23: the named parts of TICK are the lines of the pseudocode. -/
theorem tickResult : Obligations.TickResult := by
  intro p s h
  rw [toF_zero]
  exact exec_tick_of_valid h s

/-- Settles O24: each check is reached when the ones before it pass. -/
theorem tickChecksInOrder : Obligations.TickChecksInOrder := by
  intro p s
  rw [toF_zero]
  refine ⟨fun hf => ?_, fun hf hp => ?_, fun hf hp hb => ?_⟩ <;> apply exec_tick_of_check_fault
  · rw [tickCheck, hf]
    rfl
  · rw [tickCheck, hf]
    exact if_pos hp
  · rw [tickCheck, hf]
    exact (if_neg (Bool.eq_false_iff.mp hp)).trans (if_pos hb)

/-- Settles O28: the formulas at the default PI64, evaluated. -/
theorem degreesAndSectorAngles : Obligations.DegreesAndSectorAngles := by
  intro N hN
  have hArg : sectorAngle N = fun j : ℕ => fdiv (fmul (toF j) Config.pi64Default) (toF 3) := by
    funext j
    rw [sectorAngle, hN]
  rw [hArg, degreesOf, degreesOf, hN]
  exact ⟨by decide +kernel, by decide +kernel, by decide +kernel⟩

/-- Settles O29: row by row. -/
theorem thresholdMap : Obligations.ThresholdMap := fun _ => ⟨rfl, rfl, rfl, rfl, rfl, rfl⟩

/-- Settles O30: each output is a comparator's. -/
theorem phaseOutputsAreLevels : Obligations.PhaseOutputsAreLevels := by
  intro p s h
  rw [toF_zero]
  exact ⟨_, _, exec_tick_of_valid h s, rfl, (comparator_cases _ _ _).symm, (comparator_cases _ _ _).symm,
    (comparator_cases _ _ _).symm⟩

/-- Settles O31: a threshold that is equal, below or a NaN is not above the carrier. -/
theorem comparatorIsStrict : Obligations.ComparatorIsStrict := by
  intro busVoltage c0 x
  rw [toF_zero]
  refine ⟨comparator_of_fgt, comparator_of_not_fgt, fun h => comparator_of_not_fgt ?_,
    fun h => comparator_of_not_fgt ?_, fun h => comparator_of_not_fgt (compare_isNaN (.inr h)).1⟩
  · obtain ⟨-, -, heq⟩ := feq_iff_orderKey.mp h
    exact Bool.eq_false_iff.mpr fun hgt => heq.not_gt (flt_iff_orderKey.mp hgt).2.2
  · obtain ⟨-, -, hlt⟩ := flt_iff_orderKey.mp h
    exact Bool.eq_false_iff.mpr fun hgt => lt_asymm hlt (flt_iff_orderKey.mp hgt).2.2

/-- Settles O36: no command writes more than the ports and the carrier. -/
theorem tickFrame : Obligations.TickFrame := fun _ _ _ => exec_next_frame

/-- Settles O60: each free function and value is replaced wherever R107 or R6 rules it out. -/
theorem numericsWithinTheirProperties : Obligations.NumericsWithinTheirProperties :=
  ⟨numAtan2_admits, numSin_admits, numCos_admits, finitePositive_numK2Sqrt3, finitePositive_numPi64⟩

end Sys2Proof.Machine
end

section
/-! PROOFS. How commands end (spec/60_exceptions.md): the state that a stop leaves, for every reason it can have; when
a command, a reset or LIMIT has no stop; and the invariant along a run with its recorded stops. -/

namespace Sys2Proof.Machine

/-! ## What a stop leaves (R121, R123, R124) -/

/-- A step answers the run's next state or ends in a stop. -/
theorem step_next_or_stop (s : State) : step s = .next (advance s) ∨ ∃ r, step s = stopOutcome r := by
  cases h : step s with
  | next t => exact .inl (by rw [advance, h]; rfl)
  | fault f => exact .inr ⟨.fault f, rfl⟩
  | refused r => exact .inr ⟨.refused r, rfl⟩

theorem advance_of_stop {s : State} {r : Stop} (h : step s = stopOutcome r) :
    advance s = settle s (stopOutcome r) := by
  rw [advance, h]

/-- What the run does with a stop, by its reason: only a refused construction ends the run itself (log entry 13), and
only an action for a block without a run goes unrecorded (log entry 11). -/
theorem settle_stop_cases (s : State) (r : Stop) :
    settle s (stopOutcome r) = recordStop r s ∨
    (∃ c, r = .refused (.illFormedConfig c) ∧
      settle s (stopOutcome r) = { recordStop r s with phase := .construction }) ∨
    (r = .refused .notConstructed ∧ settle s (stopOutcome r) = { s with host := s.host.tail }) := by
  cases r with
  | fault f => exact .inl rfl
  | refused r =>
    cases r with
    | notModelled m => exact .inl rfl
    | reservedCommand w => exact .inl rfl
    | illFormedConfig c => exact .inr (.inl ⟨c, rfl, rfl⟩)
    | notConstructed => exact .inr (.inr ⟨rfl, rfl⟩)

/-- No stop writes a configuration register or the carrier (R121). -/
theorem settle_stop_registers (s : State) (r : Stop) :
    (settle s (stopOutcome r)).carrier = s.carrier ∧ (settle s (stopOutcome r)).cfg = s.cfg := by
  rcases settle_stop_cases s r with e | ⟨c, -, e⟩ | ⟨-, e⟩ <;> rw [e] <;> exact ⟨rfl, rfl⟩

/-- After a stop the mark holds its reason, or is as before. -/
theorem settle_stop_mark (s : State) (r : Stop) :
    (settle s (stopOutcome r)).mark = some r ∨ (settle s (stopOutcome r)).mark = s.mark := by
  rcases settle_stop_cases s r with e | ⟨c, -, e⟩ | ⟨-, e⟩ <;> rw [e]
  · exact .inl rfl
  · exact .inl rfl
  · exact .inr rfl

/-! ## What takes no step -/

theorem step_of_no_action {s : State} (h : s.host = []) : step s = .next s := by
  rw [step, h]

theorem not_ready_of_mark {s : State} {r : Stop} (h : s.mark = some r) : ¬s.ready = true := by
  simp [State.ready, State.unmarked, h]

theorem step_command_of_mark {s : State} {c : Presented} {rest : List HostAction} {r : Stop}
    (hm : s.mark = some r) (hh : s.host = .command c :: rest) : step s = stopOutcome r := by
  simp only [step_cons hh, takeAction, issueCommand, barred, hm]

/-- A block in the construction phase has a step for another construction only (R142). -/
theorem step_ne_next_of_construction {s t : State} {a : HostAction} {rest : List HostAction}
    (hp : s.phase = .construction) (hh : s.host = a :: rest) (ha : ∀ gs, a ≠ .construct gs) : step s ≠ .next t := by
  have hrun : s.phase ≠ .run := by rw [hp]; decide
  intro h
  rcases step_next h with ⟨h0, -⟩ | ⟨gs, rest', hc, -⟩ | ⟨-, -, hr, -⟩ | ⟨-, -, -, -, hr, -⟩
  · rw [hh] at h0; cases h0
  · rw [hh] at hc; exact ha gs (List.cons.inj hc).1
  · exact hrun hr
  · exact hrun (phase_of_ready hr)

/-- The one refusal a ready block's command can meet is of its word (R123, R125). -/
theorem reservedCommand_of_step_refused {s : State} {c : Presented} {rest : List HostAction} {r : Refusal}
    (hr : s.ready = true) (hh : s.host = .command c :: rest) (h : step s = .refused r) :
    ∃ w, r = .reservedCommand w := by
  rw [step_command hh hr] at h
  split at h
  · exact absurd h (exec_not_refused _ _ _)
  · exact ⟨_, (Host.Outcome.refused.inj h).symm⟩

/-! ## LIMIT under CLAMP (R64, R122) -/

/-- CLAMP gives every `raw` an index, so the one fault of LIMIT cannot arise. -/
theorem limitResult_clamp_ok {c : LimiterConfig} (hp : c.indexPolicy = .clamp) (q d : Int) :
    ∃ r, limitResult c q d = .ok r := by
  have hi : tableIndex c (rawIndex c q d) = some (clampIndex (rawIndex c q d)) := by rw [tableIndex, hp]
  rcases limitResult_cases c q d with ⟨-, e⟩ | ⟨-, -, i, -, e⟩ | ⟨-, -, hnone, -⟩ | ⟨-, -, e⟩
  · exact ⟨_, e⟩
  · exact ⟨_, e⟩
  · rw [hi] at hnone; cases hnone
  · exact ⟨_, e⟩

/-! ## The invariant along a run -/

/-- With nothing driven the invariant asks only that a run has a legal configuration. -/
theorem inv_of_undriven {s t : State} (hs : s.Inv = true) (hp : t.phase = s.phase) (hc : t.cfg = s.cfg)
    (ho : t.out = .undriven) : t.Inv = true := by
  rw [inv_iff, hp, hc, ho]
  rcases (inv_iff s).mp hs with ⟨hrun, hcfg, -⟩ | ⟨hcon, -⟩
  · exact .inl ⟨hrun, hcfg, outputsLegal_undriven _⟩
  · exact .inr ⟨hcon, rfl⟩

/-- A recorded stop drives nothing, a refused construction leaves no run, and an action for a block without a run
only leaves the host's list. -/
theorem settle_stop_inv {s : State} (hs : s.Inv = true) (r : Stop) : (settle s (stopOutcome r)).Inv = true := by
  rcases settle_stop_cases s r with e | ⟨c, -, e⟩ | ⟨-, e⟩ <;> rw [e]
  · exact inv_of_undriven hs rfl rfl rfl
  · exact (inv_iff _).mpr (.inr ⟨rfl, rfl⟩)
  · exact hs

/-- The step lemma for the recorded step: `step_next_inv` where the step completes, `settle_stop_inv` elsewhere. -/
theorem advance_inv {s : State} (hs : s.Inv = true) : (advance s).Inv = true := by
  rcases step_next_or_stop s with hn | ⟨r, h⟩
  · exact step_next_inv hs hn
  · rw [advance_of_stop h]
    exact settle_stop_inv hs r

/-! ## The obligations -/

/-- Settles O51, by induction on the number of steps. -/
theorem invariantKeptByRun : Obligations.InvariantKeptByRun := by
  intro n
  induction n with
  | zero => exact fun s hs => hs
  | succ n ih => exact fun s hs => ih (advance s) (advance_inv hs)

/-- Settles O14: under CLAMP every index is in the table, and EXACT mode reads none. -/
theorem limitCompletesUnlessWrapped : Obligations.LimitCompletesUnlessWrapped := by
  intro q d s h
  obtain ⟨r, hr⟩ : ∃ r, limitResult s.cfg (readInt16 q) (readInt16 d) = .ok r :=
    h.elim (limitResult_clamp_ok · _ _) (limitResult_exact_ok · _ _)
  exact ⟨_, exec_limit_of_ok hr⟩

/-- Settles O40: a fault is recorded as it is, and a refusal is of a reserved word, recorded likewise. -/
theorem stopsWriteNothing : Obligations.StopsWriteNothing := by
  intro s c rest hr hh
  refine ⟨fun f h => ?_, fun r h => ?_⟩
  · rw [advance_of_stop (r := .fault f) h, ← recordStop_of_host hh]
    rfl
  · obtain ⟨w, rfl⟩ := reservedCommand_of_step_refused hr hh h
    rw [advance_of_reservedCommand h, recordStop_of_host hh]

/-- Settles O41: the command meets the recorded reason again, and recording that reason changes nothing. -/
theorem recordedStopIsFinal : Obligations.RecordedStopIsFinal := by
  intro s c rest r hm hh
  have hstep : step s = stopOutcome r := step_command_of_mark hm hh
  have hmark : (settle s (stopOutcome r)).mark = some r := (settle_stop_mark s r).elim id (·.trans hm)
  rw [advance_of_stop hstep, hstep]
  exact ⟨stopOutcome_ne_next r, rfl, hmark, settle_stop_registers s r⟩

/-- Settles O42: waiting keeps the mark, a command needs a clear one, and a stop leaves some reason recorded. -/
theorem onlyResetOrConstructionClears : Obligations.OnlyResetOrConstructionClears := by
  intro s r hm hclear
  rcases step_next_or_stop s with hn | ⟨r', hstop⟩
  · rcases step_next hn with ⟨-, ht⟩ | ⟨fs, rest, hh, -⟩ | ⟨rest, hh, -⟩ | ⟨-, -, -, -, hr, -⟩
    · rw [ht, hm] at hclear; cases hclear
    · exact .inr ⟨fs, rest, hh⟩
    · exact .inl ⟨rest, hh⟩
    · exact absurd hr (not_ready_of_mark hm)
  · rw [advance_of_stop hstop] at hclear
    rcases settle_stop_mark s r' with hmark | hmark
    · rw [hmark] at hclear; cases hclear
    · rw [hmark, hm] at hclear; cases hclear

/-- Settles O48: the refusal puts the block in the construction phase, where no other action has a step. -/
theorem refusedConstructionHasNoRun : Obligations.RefusedConstructionHasNoRun := by
  intro s fs rest c a _ h
  have e := advance_of_stop (r := .refused (.illFormedConfig c)) h
  have hp : (advance s).phase = .construction := by rw [e]; rfl
  obtain ⟨hcarrier, hcfg⟩ := settle_stop_registers s (.refused (.illFormedConfig c))
  rw [← e] at hcarrier hcfg
  exact ⟨hp, hcfg, hcarrier, fun ha _ => step_ne_next_of_construction hp rfl ha⟩

/-- Settles O5: with no action to take, a step answers the state it was given. -/
theorem nothingBetweenCommands : Obligations.NothingBetweenCommands := fun _ => step_of_no_action

end Sys2Proof.Machine
end

section
/-! PROOFS. The reset action (spec/70_reset_and_hazards.md R140). -/

namespace Sys2Proof.Machine

/-- A constructed block always has a step for the reset action, whatever is recorded (R124, R140). -/
theorem step_reset_of_run {s : State} {rest : List HostAction} (hp : s.phase = .run) (hh : s.host = .reset :: rest) :
    step s = .next (resetBlock { s with host := rest }) :=
  calc
    step s = issueReset { s with host := rest } := step_cons hh
    _ = .next (resetBlock { s with host := rest }) := if_pos hp

/-! ## The obligation -/

/-- Settles O45: the state that follows is `resetBlock` of the same run, with the action taken from the list. -/
theorem resetStartsNewRun : Obligations.ResetStartsNewRun := by
  intro s rest hp hh
  exact ⟨_, step_reset_of_run hp hh, toF_zero.symm, resetBlock_mark _, resetBlock_cfg _, hp, resetBlock_host _⟩

end Sys2Proof.Machine
end
